-- ==== Sys2Proof/Word.lean ====
section
/-! DEFINITION. The word types of the engine (spec/00_scope.md rules R8, R12; spec/41_round_primitives.md rule R65). -/

namespace Sys2Proof

/-- A u64: V0..V3, BYTES, the key halves, a block word, the digest (rule R8). Addition and xor on it are those of
`BitVec`: modulo 2^64 (rule R66) and bitwise (rule R68). -/
abbrev Word := BitVec 64

/-- A byte (rule R8). -/
abbrev Byte := BitVec 8

/-- A command word, `cmd[135:0]` (spec/30_encoding.md rule R41). -/
abbrev CmdWord := BitVec 136

end Sys2Proof
end

