-- ==== Sys2Proof/Machine/Bytes.lean ====
section
/-! DEFINITION. Byte order: every conversion between byte strings and words is little-endian, with no switch
(spec/00_scope.md rule R12; spec/20_memory.md rules R28 to R32). -/

namespace Sys2Proof.Machine

/-- The sum over i of `b[i] * 2^(8*i)` (rule R12), for a byte string of any length. -/
def leNat : List Byte → Nat
  | [] => 0
  | b :: bs => b.toNat + 2 ^ 8 * leNat bs

/-- `LE64` (rules R12, R28): the first byte is the least significant. Fewer than eight bytes leave the upper lanes 0. -/
def le64 (bs : List Byte) : Word := BitVec.ofNat 64 (leNat bs)

/-- Byte lane i of a word, `w[8i+7:8i]` (rules R12, R44). -/
def laneByte (w : Word) (i : Nat) : Byte := w.extractLsb' (8 * i) 8

/-- The lanes 0..n-1 of a word, lane 0 first (rule R44). -/
def lanes (w : Word) (n : Nat) : List Byte := (List.range n).map (laneByte w)

/-- `BYTES_LE` (rules R12, R30): the eight bytes of a word, least significant first. -/
def bytesLE (w : Word) : List Byte := lanes w 8

/-- `BYTES[7:0]`, "the low 8 bits of the total byte count" (rule R31). -/
def lowByte (w : Word) : Byte := w.extractLsb' 0 8

end Sys2Proof.Machine
end

