-- ==== Sys2Proof/Syntax.lean ====
section
/-! DEFINITION. The commands of the engine, one constructor per row of spec/opcode_table.json, and the classes of
reserved command words (spec/30_encoding.md rules R42 to R49). -/

namespace Sys2Proof

/-- A command. The table gives UPDATE two rows, n = 0..7 and n = 8, so it has two constructors (log 8); both are the
one UPDATE of spec/40_init_update_final.md rules R55 to R57. -/
inductive Instr where
  /-- INIT (rule R43): `k0 = lo`, `k1 = hi` -/
  | init (k0 k1 : Word)
  /-- UPDATE with n = 0..7 (rule R44): the n data bytes, the first message byte first -/
  | update (data : List Byte)
  /-- UPDATE with n = 8 (rule R44): the field `lo`, the eight data bytes with the first least significant -/
  | updateFull (block : Word)
  /-- FINAL (rule R45): no operand -/
  | final
deriving DecidableEq, Repr

/-- Why a command word is reserved: the four classes of spec/30_encoding.md rule R47. -/
inductive Reserved where
  /-- (a) `op` is 0x0 or 0x4 to 0xF -/
  | opcode
  /-- (b) INIT with `n` not 0 -/
  | initCount
  /-- (c) FINAL with `n` not 0 -/
  | finalCount
  /-- (d) UPDATE with `n` in 9..15 -/
  | updateCount
deriving DecidableEq, Repr

end Sys2Proof
end

