-- ==== Sys2Proof/WellFormed.lean ====
section
/-! DEFINITION. Which terms of `Instr` are commands that a command word can carry (spec/30_encoding.md rules R43 to R45). -/

namespace Sys2Proof

/-- A command is well formed when its table row can carry it. INIT takes all 2^128 keys (rule R43), the full UPDATE any
`lo` (rule R44) and FINAL has no operand (rule R45); the short UPDATE carries at most 7 bytes. -/
def Instr.wellFormed : Instr → Bool
  | .init _ _ => true
  | .update data => data.length ≤ 7
  | .updateFull _ => true
  | .final => true

end Sys2Proof
end

