-- ==== Sys2Proof/Decode.lean ====
section
/-! DEFINITION. Command words: the fields, the decoder (total, a reserved word rejected by its class) and the encoder
(spec/30_encoding.md rules R41 to R49). -/

namespace Sys2Proof

open Sys2Proof.Machine

/-- `op = cmd[135:132]` (rule R41). -/
def CmdWord.op (w : CmdWord) : BitVec 4 := w.extractLsb' 132 4

/-- `n = cmd[131:128]` (rule R41). -/
def CmdWord.count (w : CmdWord) : BitVec 4 := w.extractLsb' 128 4

/-- `hi = cmd[127:64]` (rule R41). -/
def CmdWord.hi (w : CmdWord) : Word := w.extractLsb' 64 64

/-- `lo = cmd[63:0]` (rule R41). -/
def CmdWord.lo (w : CmdWord) : Word := w.extractLsb' 0 64

/-- The header byte `hdr = cmd[135:128] = (op, n)` (rule R41). -/
def CmdWord.header (w : CmdWord) : BitVec 8 := w.extractLsb' 128 8

/-- The command word with the given fields, `hdr : hi : lo` (rule R41). -/
def cmdWord (op n : BitVec 4) (hi lo : Word) : CmdWord := op ++ n ++ hi ++ lo

/-- The decoder of rule R49, with the reserved words named by the classes of rule R47. It reads the word only, never the
state. -/
def decode (w : CmdWord) : Except Reserved Instr :=
  let n := (CmdWord.count w).toNat
  if CmdWord.op w = 1 then
    if n = 0 then .ok (.init (CmdWord.lo w) (CmdWord.hi w)) else .error .initCount
  else if CmdWord.op w = 2 then
    if n ≤ 7 then .ok (.update (lanes (CmdWord.lo w) n))
    else if n = 8 then .ok (.updateFull (CmdWord.lo w))
    else .error .updateCount
  else if CmdWord.op w = 3 then
    if n = 0 then .ok .final else .error .finalCount
  else .error .opcode

/-- The command word of a well-formed command (rules R43 to R45). Ignored fields and lanes are written as zero, the
convention of rule R50 (log 9). -/
def encode : Instr → CmdWord
  | .init k0 k1 => cmdWord 0x1 0 k1 k0
  | .update data => cmdWord 0x2 (BitVec.ofNat 4 data.length) 0 (le64 data)
  | .updateFull block => cmdWord 0x2 8 0 block
  | .final => cmdWord 0x3 0 0 0

/-- The command word of a table row's bits: bit 0 is `cmd[0]`, and every bit at `nbits` and above is 0. -/
def tableWord (nbits w : Nat) : CmdWord := BitVec.ofNat 136 (w % 2 ^ nbits)

/-- The command this decoder reads from a word numbered as spec/opcode_table.json numbers it. -/
def decodeTableWord (nbits w : Nat) : Option Instr :=
  match decode (tableWord nbits w) with
  | .ok i => some i
  | .error _ => none

end Sys2Proof
end

