-- ==== Sys2Proof/Config.lean ====
section
/-! DEFINITION. The two static parameters of an engine (spec/00_scope.md rules R6, R7; spec/10_state.md rule R21). -/

namespace Sys2Proof

/-- What is fixed when an engine is built: the round counts. Both are natural numbers, zero included
(spec/93_implementation_defined.md U4); a negative count cannot be expressed (U5). -/
structure Config where
  /-- `RC`, the SIPROUNDs of one COMPRESS (rule R6) -/
  rc : Nat
  /-- `RF`, the SIPROUNDs of FINAL after its COMPRESS (rule R7) -/
  rf : Nat
deriving DecidableEq, Repr

/-- This hardware: SipHash-2-4 (rules R1, R6, R7; decision D3). -/
def Config.sipHash24 : Config := { rc := 2, rf := 4 }

end Sys2Proof
end

