-- ==== Sys2Proof/Machine/State.lean ====
section
/-! DEFINITION. The state of the engine, of its ports, and the reasons a step can stop (spec/10_state.md). -/

namespace Sys2Proof.Machine

/-- The state words V0..V3, the engine's only general registers (spec/10_state.md rule R14). -/
structure StateWords where
  v0 : Word
  v1 : Word
  v2 : Word
  v3 : Word
deriving DecidableEq, Repr

/-- The memory BUF as (address, byte) pairs in one canonical form (`Memory.wf`, log 10). -/
abbrev Memory := List Host.Cell

/-- The complete architectural record of spec/10_state.md rule R13: 385 bits, "and nothing else". -/
structure Engine where
  /-- V0..V3 (rule R14) -/
  v : StateWords
  /-- BUF[0..7] (rule R16) -/
  buf : Memory
  /-- BYTES, the bytes supplied since INIT, modulo 2^64 (rule R17) -/
  bytes : Word
  /-- ACTIVE, 1 between INIT and FINAL (rule R20), also the output `active` (spec/30_encoding.md rule R40) -/
  active : Bool
deriving DecidableEq, Repr

/-- One thing the host presents at the input ports (spec/30_encoding.md rule R40; log 2). -/
inductive PortEvent where
  /-- one command word, which the engine accepts -/
  | command (w : CmdWord)
  /-- `reset` is asserted, with or without a command word presented beside it (spec/70_reset_and_hazards.md rule R95) -/
  | reset (beside : Option CmdWord)
deriving DecidableEq, Repr

/-- The machine: the engine's record, and the model's own two fields for what passes through the ports. -/
structure State where
  /-- the 385 bits of rule R13 -/
  engine : Engine
  /-- what the host still presents on `cmd` and `reset`, first first (log 2) -/
  port : List PortEvent
  /-- the words emitted on `rsp`, oldest first (spec/30_encoding.md rule R46; log 4) -/
  responses : List Word
deriving DecidableEq, Repr

/-- The engine raises no exception, fault, trap or error of any kind (spec/60_exceptions.md rule R81), so there is no
fault: the type is empty, and no step can end in one (log 19). -/
inductive Fault where
deriving DecidableEq, Repr

/-- Where the spec defines no next state and says that a model refuses. Every refusal is safe: nothing is concluded
about a run from there on. -/
inductive Refusal where
  /-- no meaning in this model yet; raised by no arm of `exec` -/
  | notModelled (mnemonic : String)
  /-- raised by UPDATE and FINAL while ACTIVE = 0 (spec/40_init_update_final.md rule R53, spec/60_exceptions.md rule
  R82); safe (log 6) -/
  | noComputation
  /-- raised by `step` on a reserved command word (spec/30_encoding.md rule R47, spec/60_exceptions.md rule R83); safe
  (log 7) -/
  | reservedWord (why : Reserved)
deriving DecidableEq, Repr

/-- `ZERO`, all 385 bits zero: the state after reset and after every FINAL (spec/10_state.md rules R26, R27). -/
def Engine.zero : Engine :=
  { v := { v0 := 0, v1 := 0, v2 := 0, v3 := 0 }, buf := [], bytes := 0, active := false }

/-- The machine right after reset: the engine is `ZERO`, no response is pending (spec/10_state.md rule R26), and the
host has presented nothing yet. -/
def State.reset : State := { engine := Engine.zero, port := [], responses := [] }

end Sys2Proof.Machine
end

