-- ==== Sys2Proof/Machine/Ops.lean ====
section
/-! DEFINITION. The shared operations: BUF as the only memory (spec/20_memory.md), emitting a response, reset. There is
no operation that takes an exception or returns from one, since the engine has neither (spec/60_exceptions.md rules R81,
R87, R88). -/

namespace Sys2Proof.Machine

/-- What a cell of BUF that is not listed reads as: 00, its value after reset, after INIT and after the wipe
(spec/10_state.md rules R16, R26). -/
def Memory.unlisted : Byte := 0

/-- `BUF[a]`. -/
def Memory.read : Memory → Nat → Byte
  | [], _ => Memory.unlisted
  | c :: m, a => if c.1 = a then c.2 else Memory.read m a

/-- The memory without any cell listed at an address. -/
def Memory.erase (m : Memory) (a : Nat) : Memory := m.filter (fun c => c.1 ≠ a)

/-- A cell put before the first cell of a higher address. -/
def Memory.insert (c : Host.Cell) : Memory → Memory
  | [] => [c]
  | d :: m => if c.1 < d.1 then c :: d :: m else d :: Memory.insert c m

/-- `BUF[a] <- b`: the value an unlisted cell reads as is not listed. -/
def Memory.write (m : Memory) (a : Nat) (b : Byte) : Memory :=
  if b = Memory.unlisted then m.erase a else (m.erase a).insert (a, b)

/-- `BUF[a .. a+|bs|-1] <- bs`: index increasing with arrival order (spec/20_memory.md rule R36 (a)). -/
def Memory.writeBytes (m : Memory) (a : Nat) : List Byte → Memory
  | [] => m
  | b :: bs => Memory.writeBytes (m.write a b) (a + 1) bs

/-- `BUF[a .. a+n-1]` as a byte string. -/
def Memory.readBytes (m : Memory) (a n : Nat) : List Byte := (List.range n).map (fun i => m.read (a + i))

/-- `BUF[a .. a+n-1] <- 00 ..`, the zero fill (spec/20_memory.md rule R36 (b)). -/
def Memory.zeroFill (m : Memory) (a n : Nat) : Memory := m.writeBytes a (List.replicate n 0)

/-- `MemRead(a, n)` (spec/00_scope.md rule R12): a value of 8n bits, byte a least significant. -/
def Memory.memRead (m : Memory) (a n : Nat) : BitVec (8 * n) := BitVec.ofNat (8 * n) (leNat (m.readBytes a n))

/-- `MemWrite(a, n, v)` (spec/00_scope.md rule R12): `v[8i+7:8i]` to `BUF[a+i]` for i = 0..n-1. -/
def Memory.memWrite (m : Memory) (a n : Nat) (v : BitVec (8 * n)) : Memory :=
  m.writeBytes a ((List.range n).map (fun i => v.extractLsb' (8 * i) 8))

/-- `LE64(BUF[0..7]) = MemRead(0, 8)`, the one word read of BUF (spec/20_memory.md rules R28, R36 (d)). -/
def Memory.blockWord (m : Memory) : Word := m.memRead 0 8

/-- `BUF[0..7] <- 00 ..` (spec/20_memory.md rule R36 (b)): nothing is listed afterwards. -/
def Memory.cleared : Memory := []

/-- The canonical form of BUF: addresses strictly rising, each of them one of the 8 that exist (spec/20_memory.md rule
R33), and no cell listed with the value an unlisted one reads as. -/
abbrev Memory.wf (m : Memory) : Prop :=
  m.Pairwise (fun c d => c.1 < d.1) ∧ ∀ c ∈ m, c.1 < 8 ∧ c.2 ≠ Memory.unlisted

/-- The machine with another engine record: what passes the ports is untouched. -/
def State.setEngine (s : State) (e : Engine) : State := { s with engine := e }

/-- `emit RSP(d)` (spec/00_scope.md rule R12, spec/30_encoding.md rule R46): one response word, after the earlier ones. -/
def State.emit (s : State) (d : Word) : State := { s with responses := s.responses ++ [d] }

/-- The wipe (spec/40_init_update_final.md rule R61): zero to every item of the record, unconditionally. -/
def State.wipe (s : State) : State := s.setEngine Engine.zero

/-- `reset` asserted (spec/70_reset_and_hazards.md rule R95): the record becomes `ZERO`, no response is emitted, and the
responses the host already has stay with it. -/
def State.applyReset (s : State) : State := s.setEngine Engine.zero

/-- An engine to which the host presents nothing: with no command there is no step (spec/00_scope.md rule R11), so
nothing changes (log 3). -/
def State.idle (s : State) : State := s

end Sys2Proof.Machine
end

