-- ==== Sys2Proof/Machine/Flags.lean ====
section
/-! DEFINITION. The one flag, ACTIVE (spec/10_state.md rule R20), and the legality of a command in a state
(spec/40_init_update_final.md rule R53). No operation writes a carry, zero, overflow or error flag: there is none. -/

namespace Sys2Proof.Machine

/-- The output `active`, driven continuously with ACTIVE (spec/30_encoding.md rule R40). -/
def State.activeOut (s : State) : Bool := s.engine.active

/-- What the host can observe: `active` at all times and the responses, nothing else (spec/10_state.md rule R25). -/
def State.observed (s : State) : Bool × List Word := (s.activeOut, s.responses)

/-- Legality of UPDATE and FINAL: defined with ACTIVE = 1; with ACTIVE = 0 "undefined by the source; a model refuses"
(spec/40_init_update_final.md rule R53, spec/60_exceptions.md rule R82). -/
def whenActive (s : State) (t : State) : Host.Outcome State Fault Refusal :=
  if s.engine.active then .next t else .refused .noComputation

end Sys2Proof.Machine
end

