-- ==== Sys2Proof/Machine/Operands.lean ====
section
/-! DEFINITION. Operand forms: the data bytes of an UPDATE, the position in BUF, the key and the digest as bytes
(spec/30_encoding.md rules R43, R44, R46; spec/10_state.md rules R18, R23; spec/20_memory.md rules R29, R30). -/

namespace Sys2Proof.Machine

/-- The data bytes of an UPDATE, first message byte first; no other command has any (spec/30_encoding.md rule R44). -/
def beatOf : Instr → Option (List Byte)
  | .init _ _ => none
  | .update data => some data
  | .updateFull block => some (bytesLE block)
  | .final => none

/-- `used = BYTES mod 8`, the number of valid bytes in BUF (spec/10_state.md rules R18, R23). -/
def Engine.used (e : Engine) : Nat := e.bytes.toNat % 8

/-- The valid bytes `BUF[0..used-1]` (spec/10_state.md rule R18). -/
def Engine.validBytes (e : Engine) : List Byte := e.buf.readBytes 0 e.used

/-- `(BYTES + len) mod 2^64` (spec/10_state.md rule R17). -/
def addBytes (bytes : Word) (len : Nat) : Word := bytes + BitVec.ofNat 64 len

/-- The key halves (k0, k1) of a key given as 16 bytes (spec/20_memory.md rule R29). PRESUMED (log 22): which bytes form k0
is general knowledge, not the spec's source. -/
def keyHalves (key : List Byte) : Word × Word := (le64 (key.take 8), le64 ((key.drop 8).take 8))

/-- The serialized digest (spec/20_memory.md rule R30). -/
def digestBytes (d : Word) : List Byte := bytesLE d

end Sys2Proof.Machine
end

