-- ==== Sys2Proof/Machine/Permutation.lean ====
section
/-! DEFINITION. The round primitives: rotl, SIPROUND and its inverse, SIPROUNDS, COMPRESS, FOLD
(spec/41_round_primitives.md). Each is a function of the state words alone. -/

namespace Sys2Proof.Machine

/-- `rotl(a, n)` for 0 < n < 64: `((a << n) | (a >> (64-n))) mod 2^64` (spec/00_scope.md rule R12,
spec/41_round_primitives.md rule R67). -/
def rotl (a : Word) (n : Nat) : Word := (a <<< n) ||| (a >>> (64 - n))

/-- `rotr(a, n) = rotl(a, 64 - n)` (rule R71). -/
def rotr (a : Word) (n : Nat) : Word := rotl a (64 - n)

/-- SIPROUND, the fourteen assignments of rule R70 in the source's order. -/
def sipround (v : StateWords) : StateWords :=
  let v0 := v.v0 + v.v1
  let v2 := v.v2 + v.v3
  let v1 := rotl v.v1 13
  let v3 := rotl v.v3 16
  let v1 := v1 ^^^ v0
  let v3 := v3 ^^^ v2
  let v0 := rotl v0 32
  let v2 := v2 + v1
  let v0 := v0 + v3
  let v1 := rotl v1 17
  let v3 := rotl v3 21
  let v1 := v1 ^^^ v2
  let v3 := v3 ^^^ v0
  let v2 := rotl v2 32
  { v0 := v0, v1 := v1, v2 := v2, v3 := v3 }

/-- The inverse of SIPROUND, the lines undone from 8 back to 1 (rule R71). The engine never runs it. -/
def sipunround (v : StateWords) : StateWords :=
  let v2 := rotr v.v2 32
  let v1 := v.v1 ^^^ v2
  let v3 := v.v3 ^^^ v.v0
  let v1 := rotr v1 17
  let v3 := rotr v3 21
  let v2 := v2 - v1
  let v0 := v.v0 - v3
  let v0 := rotr v0 32
  let v1 := v1 ^^^ v0
  let v3 := v3 ^^^ v2
  let v1 := rotr v1 13
  let v3 := rotr v3 16
  let v0 := v0 - v1
  let v2 := v2 - v3
  { v0 := v0, v1 := v1, v2 := v2, v3 := v3 }

/-- SIPROUNDS(n): SIPROUND n times in sequence, nothing when n = 0 (rule R64). -/
def siprounds : Nat → StateWords → StateWords
  | 0, v => v
  | n + 1, v => siprounds n (sipround v)

/-- `V[3] <- V[3] xor m` (rule R63). -/
def xorV3 (m : Word) (v : StateWords) : StateWords := { v with v3 := v.v3 ^^^ m }

/-- `V[0] <- V[0] xor m` (rule R63). -/
def xorV0 (m : Word) (v : StateWords) : StateWords := { v with v0 := v.v0 ^^^ m }

/-- `V[2] <- V[2] xor 0x00000000000000ff`, FINAL step 4 (spec/40_init_update_final.md rule R59). -/
def markFinal (v : StateWords) : StateWords := { v with v2 := v.v2 ^^^ 0x00000000000000ff }

/-- COMPRESS(m) with RC rounds: the absorption of one block (rule R63). -/
def compress (rc : Nat) (v : StateWords) (m : Word) : StateWords := xorV0 m (siprounds rc (xorV3 m v))

/-- FOLD, the XOR-fold output stage (rule R73). -/
def fold (v : StateWords) : Word := (v.v0 ^^^ v.v1) ^^^ (v.v2 ^^^ v.v3)

end Sys2Proof.Machine
end

