-- ==== Sys2Proof/Machine/Final.lean ====
section
/-! DEFINITION. FINAL (spec/40_init_update_final.md rules R59 to R62). -/

namespace Sys2Proof.Machine

/-- Steps 1 and 2 of rule R59: zero fill `BUF[used .. 6]` (nothing when used = 7), the length byte into `BUF[7]`. -/
def padBuf (e : Engine) : Memory := (e.buf.zeroFill e.used (7 - e.used)).write 7 (lowByte e.bytes)

/-- Step 3 of rule R59, the final block `m` (rule R60). -/
def finalBlock (e : Engine) : Word := (padBuf e).blockWord

/-- Steps 3 to 5 of rule R59: COMPRESS(m), the 0xff mark in V2, RF plain rounds. -/
def finalWords (c : Config) (e : Engine) : StateWords := siprounds c.rf (markFinal (compress c.rc e.v (finalBlock e)))

/-- Step 6 of rule R59, the digest: the fold of the words just before the wipe (rule R62). -/
def finalDigest (c : Config) (e : Engine) : Word := fold (finalWords c e)

/-- FINAL on an engine of any round counts (spec/00_scope.md rules R6, R7): the digest is emitted and the record wiped in one
step (rules R59, R61, R62; spec/20_memory.md rule R37). -/
def execFinalAt (c : Config) (s : State) : Host.Outcome State Fault Refusal :=
  whenActive s ((s.emit (finalDigest c s.engine)).wipe)

/-- FINAL on this hardware. -/
def execFinal (s : State) : Host.Outcome State Fault Refusal := execFinalAt Config.sipHash24 s

end Sys2Proof.Machine
end

