-- ==== Sys2Proof/Machine/Init.lean ====
section
/-! DEFINITION. INIT (spec/40_init_update_final.md rule R54; the constants of spec/00_scope.md rule R9). -/

namespace Sys2Proof.Machine

/-- The four state words INIT loads: IV0..IV3 (spec/00_scope.md rule R9) xored with the key halves (rule R54). -/
def keyedWords (k0 k1 : Word) : StateWords :=
  { v0 := 0x736f6d6570736575 ^^^ k0
    v1 := 0x646f72616e646f6d ^^^ k1
    v2 := 0x6c7967656e657261 ^^^ k0
    v3 := 0x7465646279746573 ^^^ k1 }

/-- The record INIT leaves, a function of k0 and k1 alone (rule R54). The key is not kept (spec/10_state.md rule R22). -/
def initEngine (k0 k1 : Word) : Engine :=
  { v := keyedWords k0 k1, buf := Memory.cleared, bytes := 0, active := true }

/-- INIT: legal in every state; a computation in progress is abandoned without a response (rules R53, R54). -/
def execInit (k0 k1 : Word) (s : State) : Host.Outcome State Fault Refusal := .next (s.setEngine (initEngine k0 k1))

end Sys2Proof.Machine
end

