-- ==== Sys2Proof/Machine/Update.lean ====
section
/-! DEFINITION. UPDATE (spec/40_init_update_final.md rules R55 to R57), for a byte string of any length. -/

namespace Sys2Proof.Machine

/-- The `while` of rule R55: the first `blocks` whole blocks of the input, each absorbed straight from it. -/
def absorbBlocks (rc : Nat) : Nat → List Byte → StateWords → StateWords
  | 0, _, v => v
  | blocks + 1, data, v => absorbBlocks rc blocks (data.drop 8) (compress rc v (le64 (data.take 8)))

/-- The rest of rule R55 once BUF holds no valid byte: whole blocks straight from the input, then the tail of 0..7 bytes
into `BUF[0 .. len-p-1]`. -/
def absorbInput (c : Config) (data : List Byte) (e : Engine) : Engine :=
  let blocks := data.length / 8
  { e with
    v := absorbBlocks c.rc blocks data e.v
    buf := e.buf.writeBytes 0 (data.drop (8 * blocks)) }

/-- Rule R55 with `used > 0` and enough input: top BUF up to a full block, absorb it, clear BUF (decision D8, log 13). -/
def topUp (c : Config) (head : List Byte) (e : Engine) : Engine :=
  let full := e.buf.writeBytes e.used head
  { e with v := compress c.rc e.v full.blockWord, buf := Memory.cleared }

/-- UPDATE on the engine's record, the pseudocode of rule R55. `used` is read before BYTES is advanced. -/
def updateEngine (c : Config) (data : List Byte) (e : Engine) : Engine :=
  let len := data.length
  let used := e.used
  let bytes := addBytes e.bytes len
  if len = 0 then e
  else if used > 0 then
    let x := 8 - used
    if len < x then { e with buf := e.buf.writeBytes used data, bytes := bytes }
    else { absorbInput c (data.drop x) (topUp c (data.take x) e) with bytes := bytes }
  else { absorbInput c data e with bytes := bytes }

/-- UPDATE with n = 0..7 on an engine of any round counts (spec/00_scope.md rule R6): refused while ACTIVE = 0, the no-op
n = 0 included (rules R53, R57). -/
def execUpdateAt (c : Config) (data : List Byte) (s : State) : Host.Outcome State Fault Refusal :=
  whenActive s (s.setEngine (updateEngine c data s.engine))

/-- UPDATE with n = 0..7 on this hardware. -/
def execUpdate (data : List Byte) (s : State) : Host.Outcome State Fault Refusal := execUpdateAt Config.sipHash24 data s

/-- UPDATE with n = 8 on an engine of any round counts: the eight lanes of `lo`, the first message byte least significant
(spec/30_encoding.md rule R44). -/
def execUpdateFullAt (c : Config) (block : Word) (s : State) : Host.Outcome State Fault Refusal :=
  whenActive s (s.setEngine (updateEngine c (bytesLE block) s.engine))

/-- UPDATE with n = 8 on this hardware. -/
def execUpdateFull (block : Word) (s : State) : Host.Outcome State Fault Refusal :=
  execUpdateFullAt Config.sipHash24 block s

end Sys2Proof.Machine
end

