-- ==== Sys2Proof/Machine/Dispatch.lean ====
section
/-! DEFINITION. The dispatch: one arm per constructor of `Instr`. -/

namespace Sys2Proof.Machine

def exec (i : Instr) (s : State) : Host.Outcome State Fault Refusal :=
  match i with
  | .init k0 k1 => Sys2Proof.Machine.execInit k0 k1 s
  | .update data => Sys2Proof.Machine.execUpdate data s
  | .updateFull block => Sys2Proof.Machine.execUpdateFull block s
  | .final => Sys2Proof.Machine.execFinal s

end Sys2Proof.Machine
end

