-- ==== Sys2Proof/Machine/Port.lean ====
section
/-! DEFINITION. Taking one event from the input ports (spec/30_encoding.md rule R40, spec/70_reset_and_hazards.md rule
R95). What an engine does with an accepted command is an argument `run`, so that the ports are written once for this
hardware and for the engines of other round counts. -/

namespace Sys2Proof.Machine

/-- One accepted command word: decoded, then executed; a reserved word is refused by its class (spec/30_encoding.md rules
R47, R49). The word is looked at before the phase, so a reserved word in the wrong phase is refused as reserved (log 21). -/
def acceptWordBy (run : Instr → State → Host.Outcome State Fault Refusal) (w : CmdWord) (s : State) :
    Host.Outcome State Fault Refusal :=
  match decode w with
  | .ok i => run i s
  | .error why => .refused (.reservedWord why)

/-- One event. Reset takes precedence over a command presented with it, whatever that command is
(spec/70_reset_and_hazards.md rule R95, spec/60_exceptions.md rule R86). -/
def acceptEventBy (run : Instr → State → Host.Outcome State Fault Refusal) (ev : PortEvent) (s : State) :
    Host.Outcome State Fault Refusal :=
  match ev with
  | .command w => acceptWordBy run w s
  | .reset _ => .next s.applyReset

/-- The first event at the ports is taken from them and has its whole effect. With nothing presented the engine waits and
nothing changes (spec/70_reset_and_hazards.md rule R96, log 3). -/
def stepBy (run : Instr → State → Host.Outcome State Fault Refusal) (s : State) : Host.Outcome State Fault Refusal :=
  match s.port with
  | [] => .next s.idle
  | ev :: rest => acceptEventBy run ev { s with port := rest }

/-- One accepted command word, on this hardware. -/
def acceptWord (w : CmdWord) (s : State) : Host.Outcome State Fault Refusal := acceptWordBy exec w s

/-- One event, on this hardware. -/
def acceptEvent (ev : PortEvent) (s : State) : Host.Outcome State Fault Refusal := acceptEventBy exec ev s

/-- The host presents one more command word, before everything it presents already. -/
def State.presentFirst (s : State) (w : CmdWord) : State := { s with port := .command w :: s.port }

end Sys2Proof.Machine
end

