-- ==== Sys2Proof/Machine/Step.lean ====
section
/-! DEFINITION. One step: the first event at the ports, if there is one (spec/00_scope.md rules R10, R11;
spec/20_memory.md rules R37, R38). -/

namespace Sys2Proof.Machine

/-- One step of the machine: the first event at the ports, executed by this hardware. -/
def step (s : State) : Host.Outcome State Fault Refusal := stepBy exec s

/-- The state with a table row's word presented as the next command, so that the very next step accepts exactly it
(log 5). Nothing else changes; in particular ACTIVE stays what it is. -/
def State.withFetchWord (s : State) (nbits w : Nat) : State := s.presentFirst (tableWord nbits w)

end Sys2Proof.Machine
end

