-- ==== Sys2Proof/Machine/MicroOps.lean ====
section
/-! DEFINITION. The sequence of primitive operations a command performs, as data (spec/41_round_primitives.md rule R72;
spec/70_reset_and_hazards.md rules R102, R107). It says a second time, in the small, what `exec` says whole: which
operations run, how many SIPROUNDs, which BUF indices are written. `exec` does not use it. -/

namespace Sys2Proof.Machine

/-- One primitive operation of the datapath. -/
inductive MicroOp where
  /-- V <- IV xor key (spec/40_init_update_final.md rule R54) -/
  | loadWords (k0 k1 : Word)
  /-- BUF[0..7] <- 00 .. -/
  | zeroBuf
  /-- BUF[a] <- b -/
  | writeBuf (a : Nat) (b : Byte)
  /-- BUF[7] <- BYTES[7:0] -/
  | writeLength
  /-- BYTES <- 0 -/
  | zeroBytes
  /-- BYTES <- (BYTES + len) mod 2^64 -/
  | countBytes (len : Nat)
  /-- ACTIVE <- 1 -/
  | activate
  /-- m <- LE64(BUF[0..7]) -/
  | blockFromBuf
  /-- m <- a block straight from the input -/
  | blockFromInput (m : Word)
  /-- V3 <- V3 xor m -/
  | xorBlockV3
  /-- SIPROUND -/
  | round
  /-- V0 <- V0 xor m -/
  | xorBlockV0
  /-- V2 <- V2 xor ff -/
  | mark
  /-- emit RSP(FOLD()) -/
  | foldOut
  /-- zero to every item of state -/
  | wipeAll
deriving DecidableEq, Repr

/-- An operation without its data: what a rule of constant time may look at (rule R102). A BUF index is kept. -/
inductive MicroShape where
  | loadWords | zeroBuf | writeBuf (a : Nat) | writeLength | zeroBytes | countBytes (len : Nat) | activate
  | blockFromBuf | blockFromInput | xorBlockV3 | round | xorBlockV0 | mark | foldOut | wipeAll
deriving DecidableEq, Repr

/-- The shape of an operation. -/
def MicroOp.shape : MicroOp → MicroShape
  | .loadWords _ _ => .loadWords
  | .zeroBuf => .zeroBuf
  | .writeBuf a _ => .writeBuf a
  | .writeLength => .writeLength
  | .zeroBytes => .zeroBytes
  | .countBytes len => .countBytes len
  | .activate => .activate
  | .blockFromBuf => .blockFromBuf
  | .blockFromInput _ => .blockFromInput
  | .xorBlockV3 => .xorBlockV3
  | .round => .round
  | .xorBlockV0 => .xorBlockV0
  | .mark => .mark
  | .foldOut => .foldOut
  | .wipeAll => .wipeAll

/-- The datapath inside a command: the record, the temporary block word m (spec/10_state.md rule R22 (e)), and what has
been emitted. -/
structure Datapath where
  engine : Engine
  block : Word
  out : List Word
deriving DecidableEq, Repr

/-- The effect of one operation. -/
def MicroOp.apply (p : Datapath) : MicroOp → Datapath
  | .loadWords k0 k1 => { p with engine := { p.engine with v := keyedWords k0 k1 } }
  | .zeroBuf => { p with engine := { p.engine with buf := Memory.cleared } }
  | .writeBuf a b => { p with engine := { p.engine with buf := p.engine.buf.write a b } }
  | .writeLength => { p with engine := { p.engine with buf := p.engine.buf.write 7 (lowByte p.engine.bytes) } }
  | .zeroBytes => { p with engine := { p.engine with bytes := 0 } }
  | .countBytes len => { p with engine := { p.engine with bytes := addBytes p.engine.bytes len } }
  | .activate => { p with engine := { p.engine with active := true } }
  | .blockFromBuf => { p with block := p.engine.buf.blockWord }
  | .blockFromInput m => { p with block := m }
  | .xorBlockV3 => { p with engine := { p.engine with v := xorV3 p.block p.engine.v } }
  | .round => { p with engine := { p.engine with v := sipround p.engine.v } }
  | .xorBlockV0 => { p with engine := { p.engine with v := xorV0 p.block p.engine.v } }
  | .mark => { p with engine := { p.engine with v := markFinal p.engine.v } }
  | .foldOut => { p with out := p.out ++ [fold p.engine.v] }
  | .wipeAll => { p with engine := Engine.zero }

/-- Operations in order. -/
def runMicroOps (ops : List MicroOp) (p : Datapath) : Datapath := ops.foldl MicroOp.apply p

/-- COMPRESS of the block word (rule R63). -/
def compressOps (rc : Nat) : List MicroOp := .xorBlockV3 :: List.replicate rc .round ++ [.xorBlockV0]

/-- Bytes into BUF from index a up. -/
def writeOps (a : Nat) : List Byte → List MicroOp
  | [] => []
  | b :: bs => .writeBuf a b :: writeOps (a + 1) bs

/-- Whole blocks from the input, then the tail (the end of rule R55). -/
def inputOps (c : Config) (data : List Byte) : List MicroOp :=
  (List.range (data.length / 8)).flatMap
      (fun j => .blockFromInput (le64 ((data.drop (8 * j)).take 8)) :: compressOps c.rc)
    ++ writeOps 0 (data.drop (8 * (data.length / 8)))

/-- The operations of UPDATE (rules R55, R56). They are chosen by `used` and the number of bytes alone. -/
def updateOps (c : Config) (used : Nat) (data : List Byte) : List MicroOp :=
  if data.length = 0 then []
  else if used > 0 then
    if data.length < 8 - used then writeOps used data ++ [.countBytes data.length]
    else
      writeOps used (data.take (8 - used)) ++ .blockFromBuf :: compressOps c.rc ++ .zeroBuf ::
        inputOps c (data.drop (8 - used)) ++ [.countBytes data.length]
  else inputOps c data ++ [.countBytes data.length]

/-- The operations of FINAL (rule R59). -/
def finalOps (c : Config) (used : Nat) : List MicroOp :=
  writeOps used (List.replicate (7 - used) 0) ++ [.writeLength, .blockFromBuf] ++ compressOps c.rc ++
    .mark :: List.replicate c.rf .round ++ [.foldOut, .wipeAll]

/-- The operations a legal command performs: a function of the command, of `used` and of the configuration. -/
def microOps (c : Config) (used : Nat) : Instr → List MicroOp
  | .init k0 k1 => [.loadWords k0 k1, .zeroBuf, .zeroBytes, .activate]
  | .update data => updateOps c used data
  | .updateFull block => updateOps c used (bytesLE block)
  | .final => finalOps c used

/-- How many SIPROUNDs a legal command runs: work, not time (spec/70_reset_and_hazards.md rule R107). -/
def roundCount (c : Config) (used : Nat) (i : Instr) : Nat := (microOps c used i).count .round

end Sys2Proof.Machine
end

