-- ==== Sys2Proof/Machine/OneShot.lean ====
section
/-! DEFINITION. The pseudo-commands UPDATE* and ONESHOT, the function they compute, and the state in mid-stream
(spec/30_encoding.md rules R51, R52; spec/42_oneshot.md). None of them is a command: they are sequences of commands. -/

namespace Sys2Proof.Machine

/-- One outcome after another: the left fold of commands stops at the first refusal (spec/20_memory.md rule R38). -/
def andThen (o : Host.Outcome State Fault Refusal) (next : State → Host.Outcome State Fault Refusal) :
    Host.Outcome State Fault Refusal :=
  match o with
  | .next s => next s
  | .fault why => .fault why
  | .refused why => .refused why

/-- The left fold: inputs taken one at a time, in order, up to the first refusal (spec/20_memory.md rule R38). -/
def foldAll {α : Type} (take : α → State → Host.Outcome State Fault Refusal) :
    List α → State → Host.Outcome State Fault Refusal
  | [], s => .next s
  | a :: as, s => andThen (take a s) (foldAll take as)

/-- Commands executed in order (spec/20_memory.md rule R38). -/
def execAll (is : List Instr) (s : State) : Host.Outcome State Fault Refusal := foldAll exec is s

/-- The UPDATE command that carries a beat of 0 to 8 bytes (spec/30_encoding.md rule R44). -/
def beatInstr (beat : List Byte) : Instr := if beat.length = 8 then .updateFull (le64 beat) else .update beat

/-- `UPDATE* s`: `ceil(L / 8)` beats, the j-th carrying `s[8j .. min(8j+7, L-1)]` (spec/30_encoding.md rule R51). -/
def updateStar (s : List Byte) : List Instr :=
  (List.range ((s.length + 7) / 8)).map (fun j => beatInstr ((s.drop (8 * j)).take 8))

/-- `ONESHOT k0, k1, s` (spec/30_encoding.md rule R52, spec/42_oneshot.md rule R75). -/
def oneshot (k0 k1 : Word) (s : List Byte) : List Instr := .init k0 k1 :: updateStar s ++ [.final]

/-- The j-th block word of a message (spec/42_oneshot.md rule R76): `m_j` for j below `w = floor(L/8)`, and `m_w`, which
holds the last 0 to 7 bytes, zeros, and `L mod 256`. -/
def hashBlock (s : List Byte) (j : Nat) : Word :=
  let w := s.length / 8
  if j < w then le64 ((s.drop (8 * j)).take 8)
  else le64 (s.drop (8 * w) ++ List.replicate (7 - s.length % 8) 0 ++ [BitVec.ofNat 8 s.length])

/-- The words after the loop of rule R76 has run for the first n blocks. -/
def absorbedWords (c : Config) (k0 k1 : Word) (s : List Byte) (n : Nat) : StateWords :=
  (List.range n).foldl (fun v j => compress c.rc v (hashBlock s j)) (keyedWords k0 k1)

/-- `SipHash(RC, RF, k0, k1, s)` (spec/42_oneshot.md rule R76). -/
def sipHash (c : Config) (k0 k1 : Word) (s : List Byte) : Word :=
  let v := siprounds c.rf (markFinal (absorbedWords c k0 k1 s (s.length / 8 + 1)))
  v.v0 ^^^ v.v1 ^^^ v.v2 ^^^ v.v3

/-- The record after `INIT k0, k1` and UPDATEs whose bytes concatenate to s (spec/42_oneshot.md rule R79). -/
def streamEngine (c : Config) (k0 k1 : Word) (s : List Byte) : Engine :=
  { v := absorbedWords c k0 k1 s (s.length / 8)
    buf := Memory.cleared.writeBytes 0 (s.drop (8 * (s.length / 8)))
    bytes := BitVec.ofNat 64 s.length
    active := true }

end Sys2Proof.Machine
end

