-- ==== Sys2Proof/Machine/Variant.lean ====
section
/-! DEFINITION. The engine at any round counts. A model takes RC and RF as configuration arguments, so that SipHash-1-3 and
SipHash-4-8 are instances of the same rules (spec/00_scope.md rules R6, R7). The counts are no state and no command writes
them (spec/10_state.md rule R21), so they are an argument of the machine, not a field of State. `exec`, `step` and `core`
are the instance RC = 2, RF = 4 (log 1). -/

namespace Sys2Proof.Machine

/-- One command on an engine of the counts c. INIT runs no round. -/
def execAt (c : Config) (i : Instr) (s : State) : Host.Outcome State Fault Refusal :=
  match i with
  | .init k0 k1 => execInit k0 k1 s
  | .update data => execUpdateAt c data s
  | .updateFull block => execUpdateFullAt c block s
  | .final => execFinalAt c s

/-- One step of an engine of the counts c. -/
def stepAt (c : Config) (s : State) : Host.Outcome State Fault Refusal := stepBy (execAt c) s

/-- The machine of the counts c. Reset is the same state at every count: RC and RF are not state (spec/10_state.md rule
R21). -/
def coreAt (c : Config) : Host.Core :=
  { State := State, Fault := Fault, Refusal := Refusal, step := stepAt c, reset := State.reset }

/-- Commands executed in order on an engine of the counts c. -/
def execAllAt (c : Config) (is : List Instr) (s : State) : Host.Outcome State Fault Refusal := foldAll (execAt c) is s

end Sys2Proof.Machine
end

