-- ==== Sys2Proof/Safety.lean ====
section
/-! DEFINITION. What claims are stated in terms of: runs, clean runs, and the invariant of the record
(spec/70_reset_and_hazards.md rule R106; spec/10_state.md rules R18, R24, R27; spec/20_memory.md rule R34). -/

namespace Sys2Proof.Machine

/-- A run: events taken one at a time, in order, up to the first refusal (spec/20_memory.md rule R38,
spec/70_reset_and_hazards.md rule R106). -/
def runEvents (evs : List PortEvent) (s : State) : Host.Outcome State Fault Refusal := foldAll acceptEvent evs s

/-- A run is clean when no command in it is refused (spec/70_reset_and_hazards.md rule R106). -/
def CleanRun (evs : List PortEvent) (s : State) : Prop := ∃ t, runEvents evs s = .next t

/-- What the host owes the engine (spec/70_reset_and_hazards.md rules R97, R106): only defined command words, and INIT
before UPDATE or FINAL, read off the events alone given ACTIVE at the start. -/
def hostKeepsOrder : Bool → List PortEvent → Bool
  | _, [] => true
  | _, .reset _ :: evs => hostKeepsOrder false evs
  | active, .command w :: evs =>
    match decode w with
    | .ok (.init _ _) => hostKeepsOrder true evs
    | .ok (.update _) => active && hostKeepsOrder active evs
    | .ok (.updateFull _) => active && hostKeepsOrder active evs
    | .ok .final => active && hostKeepsOrder false evs
    | .error _ => false

/-- How many of the events are FINAL words. -/
def finalCount : List PortEvent → Nat
  | [] => 0
  | .reset _ :: evs => finalCount evs
  | .command w :: evs => (if decode w = .ok .final then 1 else 0) + finalCount evs

/-- Two events a host could not tell apart by their headers: two words with one header byte, whatever key or data they
carry, or two resets (spec/41_round_primitives.md rule R72: what a command does is a function of `op` and n, not of data). -/
def SameHeader : PortEvent → PortEvent → Prop
  | .command w, .command w' => CmdWord.header w = CmdWord.header w'
  | .reset _, .reset _ => True
  | .command _, .reset _ => False
  | .reset _, .command _ => False

/-- An event that is not a FINAL word, header 0x30 (spec/30_encoding.md rule R45). -/
def NotFinal : PortEvent → Prop
  | .command w => CmdWord.header w ≠ 0x30
  | .reset _ => True

/-- The invariant of the record. (1) BUF is in canonical form, every address one of the 8 that exist
(spec/20_memory.md rules R33, R34). (2) Bytes of BUF at index `used` and above hold zero (spec/10_state.md rule R24).
(3) With ACTIVE = 0 the record is `ZERO`: one idle state, with no key material in it (spec/10_state.md rule R27,
spec/70_reset_and_hazards.md rule R95). -/
abbrev Engine.Inv (e : Engine) : Prop :=
  e.buf.wf ∧ (∀ a, a < 8 → e.used ≤ a → e.buf.read a = 0) ∧ (e.active = false → e = Engine.zero)

/-- The invariant of the machine: that of its engine. -/
abbrev State.Inv (s : State) : Prop := s.engine.Inv

/-- The phase in which a command has a defined step (spec/40_init_update_final.md rule R53). -/
def Legal (i : Instr) (s : State) : Prop :=
  match i with
  | .init _ _ => True
  | .update _ => s.engine.active = true
  | .updateFull _ => s.engine.active = true
  | .final => s.engine.active = true

end Sys2Proof.Machine
end

