-- ==== Sys2Proof/Certificates/Slice0/Obligations.lean ====
section
/-! DEFINITION. The statements about the machine, from the numbered rules of spec/. -/

open Sys2Proof Sys2Proof.Machine

/-! ## Encoding -/

/-- Decoding what the encoder wrote gives the command back, for every well-formed command and every operand value
(spec/30_encoding.md section 5). -/
def Obligations.DecodeEncodeRoundTrip : Prop :=
  ∀ i : Instr, i.wellFormed = true → decode (encode i) = .ok i

/-- The decoder, field by field (spec/30_encoding.md rule R49). -/
def Obligations.DecodeReadsTheFields : Prop :=
  ∀ w : CmdWord,
    let op : BitVec 4 := w.extractLsb' 132 4
    let n : Nat := BitVec.toNat (w.extractLsb' 128 4)
    let hi : Word := w.extractLsb' 64 64
    let lo : Word := w.extractLsb' 0 64
    (op = 1 ∧ n = 0 → decode w = .ok (.init lo hi)) ∧
    (op = 2 ∧ n ≤ 8 → ∃ i, decode w = .ok i ∧
      beatOf i = some ((List.range n).map (fun j => lo.extractLsb' (8 * j) 8))) ∧
    (op = 3 ∧ n = 0 → decode w = .ok .final) ∧
    (¬ (op = 1 ∧ n = 0) ∧ ¬ (op = 2 ∧ n ≤ 8) ∧ ¬ (op = 3 ∧ n = 0) → ∃ why, decode w = .error why)

/-- The reserved words are exactly those of rule R47, by class; 11 header bytes are defined and 245 reserved; the machine
refuses every reserved word. -/
def Obligations.ReservedWordsAreRefused : Prop :=
  let defined : List (BitVec 8) := [0x10, 0x20, 0x21, 0x22, 0x23, 0x24, 0x25, 0x26, 0x27, 0x28, 0x30]
  (∀ w : CmdWord,
    let op : BitVec 4 := w.extractLsb' 132 4
    let n : Nat := BitVec.toNat (w.extractLsb' 128 4)
    (decode w = .error .opcode ↔ op = 0 ∨ 4 ≤ op.toNat) ∧
    (decode w = .error .initCount ↔ op = 1 ∧ n ≠ 0) ∧
    (decode w = .error .finalCount ↔ op = 3 ∧ n ≠ 0) ∧
    (decode w = .error .updateCount ↔ op = 2 ∧ 9 ≤ n) ∧
    ((∃ i, decode w = .ok i) ↔ w.extractLsb' 128 8 ∈ defined)) ∧
  defined.Nodup ∧ defined.length = 11 ∧ 2 ^ 8 - defined.length = 245 ∧
  (∀ (s : State) (w : CmdWord) (rest : List PortEvent), s.port = .command w :: rest →
    w.extractLsb' 128 8 ∉ defined → ∃ why, step s = .refused (.reservedWord why))

/-- The ignored fields and lanes of UPDATE and FINAL do not matter: `hi` and the lanes n and above of UPDATE, `hi` and `lo`
of FINAL (spec/30_encoding.md rules R44, R45). -/
def Obligations.IgnoredFieldsAreDropped : Prop :=
  ∀ w w' : CmdWord, CmdWord.header w = CmdWord.header w' →
    (CmdWord.op w = 2 →
      (∀ j, j < (CmdWord.count w).toNat → laneByte (CmdWord.lo w) j = laneByte (CmdWord.lo w') j) →
      decode w = decode w') ∧
    (CmdWord.op w = 3 → decode w = decode w')

/-- What the decoder accepts is well formed and is encoded under the same header; an INIT word is its own encoding. -/
def Obligations.EncodeOfDecodedWord : Prop :=
  ∀ (w : CmdWord) (i : Instr), decode w = .ok i →
    i.wellFormed = true ∧ CmdWord.header (encode i) = CmdWord.header w ∧ decode (encode i) = .ok i ∧
      (CmdWord.op w = 1 → encode i = w)

/-- Words written out from the encoding of spec/30_encoding.md and the programs of spec/95_test_vectors.md. -/
def Obligations.WrittenWordsDecode : Prop :=
  decode 0x100f0e0d0c0b0a09080706050403020100 = .ok (.init 0x0706050403020100 0x0f0e0d0c0b0a0908) ∧
  decode 0x2000000000000000000000000000000000 = .ok (.update []) ∧
  decode 0x2300000000000000000000000000020100 = .ok (.update [0x00, 0x01, 0x02]) ∧
  decode 0x23deadbeefdeadbeefffffffffff020100 = .ok (.update [0x00, 0x01, 0x02]) ∧
  decode 0x2800000000000000000a09080706050403 = .ok (.updateFull 0x0a09080706050403) ∧
  decode 0x3000000000000000000000000000000000 = .ok .final ∧
  decode 0x0000000000000000000000000000000000 = .error .opcode ∧
  decode 0x1100000000000000000000000000000000 = .error .initCount ∧
  decode 0x2900000000000000000000000000000000 = .error .updateCount ∧
  decode 0x3100000000000000000000000000000000 = .error .finalCount

/-- The format of INIT (spec/30_encoding.md rule R43): header 0x10, `lo = k0`, `hi = k1`, all keys legal.
The third clause, for a key given as 16 bytes (byte j at `cmd[8j+7:8j]`), is PRESUMED (log 22): that k0 is the first eight
bytes and k1 the last eight is general knowledge, not the spec's source, as spec/20_memory.md rule R29 says of itself. -/
def Obligations.InitWordCarriesTheKey : Prop :=
  (∀ (k0 k1 : Word) (w : CmdWord), decode w = .ok (.init k0 k1) ↔
    w.extractLsb' 128 8 = (0x10 : BitVec 8) ∧ w.extractLsb' 0 64 = k0 ∧ w.extractLsb' 64 64 = k1) ∧
  (∀ k0 k1 : Word, ∃ w : CmdWord, decode w = .ok (.init k0 k1)) ∧
  (∀ key : List Byte, key.length = 16 →
    let w := encode (.init (keyHalves key).1 (keyHalves key).2)
    decode w = .ok (.init (le64 (key.take 8)) (le64 (key.drop 8))) ∧
    ∀ j, j < 16 → w.extractLsb' (8 * j) 8 = key.getD j 0)

/-! ## The step and the ports -/

/-- A step runs the decoded command: the first word at the port leaves the port and its command runs on the rest; a word
placed by `withFetchWord` is what the very next step runs. -/
def Obligations.StepRunsTheDecodedCommand : Prop :=
  (∀ (s : State) (w : CmdWord) (rest : List PortEvent) (i : Instr),
    s.port = .command w :: rest → decode w = .ok i → step s = exec i { s with port := rest }) ∧
  (∀ (s : State) (nbits w : Nat) (i : Instr),
    decodeTableWord nbits w = some i → step (s.withFetchWord nbits w) = exec i s)

/-- With nothing presented nothing changes. That the step answers the same state and not a stop is the model's own choice
(log 3); the spec says that with no command there is no step (spec/00_scope.md rule R11). -/
def Obligations.IdleEngineStaysPut : Prop :=
  ∀ s : State, s.port = [] → step s = .next s

/-- Reset (spec/10_state.md rule R26): every item zero, no response pending or emitted, from every state, whatever command
is presented beside it; and the state the machine starts from is that state. -/
def Obligations.ResetZeroesEveryItem : Prop :=
  (∀ (s : State) (beside : Option CmdWord) (rest : List PortEvent), s.port = .reset beside :: rest →
    ∃ t, step s = .next t ∧
      t.engine.v.v0 = 0 ∧ t.engine.v.v1 = 0 ∧ t.engine.v.v2 = 0 ∧ t.engine.v.v3 = 0 ∧
      (∀ a, t.engine.buf.read a = 0) ∧ t.engine.bytes = 0 ∧ t.engine.active = false ∧
      t.engine = State.reset.engine ∧ t.port = rest ∧ t.responses = s.responses) ∧
  State.reset.engine.v = { v0 := 0, v1 := 0, v2 := 0, v3 := 0 } ∧
  (∀ a, State.reset.engine.buf.read a = 0) ∧ State.reset.engine.bytes = 0 ∧ State.reset.engine.active = false ∧
  State.reset.responses = []

/-- The left fold (spec/20_memory.md rule R38): a run of one sequence after another is one run of both, and the machine's
own steps, as many as events are presented, are that run. -/
def Obligations.RunsAreLeftFolds : Prop :=
  (∀ (as bs : List PortEvent) (s : State), runEvents (as ++ bs) s = andThen (runEvents as s) (runEvents bs)) ∧
  (∀ s : State, Sys2Proof.core.run s.port.length s = runEvents s.port { s with port := [] })

/-! ## INIT -/

/-- INIT (spec/40_init_update_final.md rule R54): it completes in every state with the same record, a function of k0 and k1
alone; no response; what the host presents is untouched. -/
def Obligations.InitLoadsKeyedWords : Prop :=
  ∀ (k0 k1 : Word) (s : State), ∃ t,
    exec (.init k0 k1) s = .next t ∧
      t.engine.v = { v0 := 0x736f6d6570736575 ^^^ k0, v1 := 0x646f72616e646f6d ^^^ k1,
                     v2 := 0x6c7967656e657261 ^^^ k0, v3 := 0x7465646279746573 ^^^ k1 } ∧
      t.engine.buf = Memory.cleared ∧ (∀ a, t.engine.buf.read a = 0) ∧
      t.engine.bytes = 0 ∧ t.engine.active = true ∧ t.port = s.port ∧ t.responses = s.responses

/-- Nothing from before an INIT reaches anything after it: the whole run is the same from any two engine records
(spec/40_init_update_final.md rule R54, spec/70_reset_and_hazards.md rule R100). -/
def Obligations.InitForgetsTheOldRecord : Prop :=
  ∀ (k0 k1 : Word) (evs : List PortEvent) (s : State) (e e' : Engine),
    runEvents (.command (encode (.init k0 k1)) :: evs) (s.setEngine e) =
      runEvents (.command (encode (.init k0 k1)) :: evs) (s.setEngine e')

/-- The wiped state and the reset state are one state, all zero, and no INIT leaves it: V0 and V2 are not both zero
(spec/10_state.md rule R27). -/
def Obligations.InitNeverLeavesZero : Prop :=
  (∀ s t : State, exec .final s = .next t → t.engine = State.reset.engine) ∧
  (∀ (s : State) (beside : Option CmdWord), acceptEvent (.reset beside) s = .next (s.setEngine State.reset.engine)) ∧
  State.reset.engine = { v := { v0 := 0, v1 := 0, v2 := 0, v3 := 0 }, buf := [], bytes := 0, active := false } ∧
  (∀ (k0 k1 : Word) (s t : State), exec (.init k0 k1) s = .next t →
    ¬ (t.engine.v.v0 = 0 ∧ t.engine.v.v2 = 0) ∧ t.engine.active = true ∧ t.engine ≠ State.reset.engine)

/-! ## UPDATE -/

/-- UPDATE with no bytes (spec/40_init_update_final.md rule R57): it writes nothing, and with ACTIVE = 0 it is refused,
not ignored. -/
def Obligations.EmptyUpdateIsNoOp : Prop :=
  (∀ s : State, s.engine.active = true → exec (.update []) s = .next s) ∧
  (∀ s : State, s.engine.active = false → exec (.update []) s = .refused .noComputation)

/-- UPDATE as one command, the four cases of spec/40_init_update_final.md rule R56, decided by `used` and n, for both forms
of the command. The invariant is that of spec/10_state.md rule R24 (`InvariantIsKept`). -/
def Obligations.UpdateFourCases : Prop :=
  ∀ (i : Instr) (data : List Byte) (s : State), beatOf i = some data → data.length ≤ 8 →
    s.engine.active = true → s.Inv →
    let e := s.engine
    let used := e.bytes.toNat % 8
    let n := data.length
    let old := (List.range used).map (fun j => e.buf.read j)
    (n = 0 → exec i s = .next s) ∧
    (1 ≤ n ∧ used + n < 8 → ∃ t, exec i s = .next t ∧
      t.engine.v = e.v ∧
      (∀ j, j < n → t.engine.buf.read (used + j) = data.getD j 0) ∧
      (∀ a, a < used ∨ used + n ≤ a → t.engine.buf.read a = e.buf.read a) ∧
      t.engine.bytes = e.bytes + BitVec.ofNat 64 n ∧
      t.engine.active = true ∧ t.port = s.port ∧ t.responses = s.responses) ∧
    (used + n = 8 → ∃ t, exec i s = .next t ∧
      t.engine.v = compress 2 e.v (le64 (old ++ data)) ∧
      (∀ block, i = .updateFull block → used = 0 ∧ t.engine.v = compress 2 e.v block) ∧
      (∀ a, t.engine.buf.read a = 0) ∧
      t.engine.bytes = e.bytes + BitVec.ofNat 64 n ∧
      t.engine.active = true ∧ t.port = s.port ∧ t.responses = s.responses) ∧
    (8 < used + n → ∃ t, exec i s = .next t ∧
      t.engine.v = compress 2 e.v (le64 (old ++ data.take (8 - used))) ∧
      (∀ j, j < used + n - 8 → t.engine.buf.read j = data.getD (8 - used + j) 0) ∧
      (∀ a, used + n - 8 ≤ a → t.engine.buf.read a = 0) ∧
      t.engine.bytes = e.bytes + BitVec.ofNat 64 n ∧
      t.engine.active = true ∧ t.port = s.port ∧ t.responses = s.responses)

/-- UPDATE of a byte string of any length (the end condition of spec/40_init_update_final.md rule R55): the valid bytes and
the data are one string; its `floor((used + len) / 8)` whole blocks are absorbed in order, its tail is what BUF holds,
with zeros above. -/
def Obligations.UpdateAbsorbsWholeBlocks : Prop :=
  ∀ (i : Instr) (data : List Byte) (s : State), beatOf i = some data → s.engine.active = true → s.Inv →
    let e := s.engine
    let used := e.bytes.toNat % 8
    let all := (List.range used).map (fun j => e.buf.read j) ++ data
    let blocks := (used + data.length) / 8
    ∃ t, exec i s = .next t ∧
      t.engine.v = ((List.range blocks).map (fun j => le64 ((all.drop (8 * j)).take 8))).foldl (compress 2) e.v ∧
      (∀ a, t.engine.buf.read a = if a < (used + data.length) % 8 then all.getD (8 * blocks + a) 0 else 0) ∧
      t.engine.bytes.toNat = (e.bytes.toNat + data.length) % 2 ^ 64 ∧
      t.engine.bytes.toNat % 8 = (used + data.length) % 8 ∧
      t.engine.active = true ∧ t.port = s.port ∧ t.responses = s.responses

/-- The frame of both UPDATE forms in every state, reachable or not: ACTIVE, the ports and, unless a block completes, the
state words and every byte of BUF outside the ones written are unchanged. -/
def Obligations.UpdateFrame : Prop :=
  ∀ (i : Instr) (data : List Byte) (s t : State), beatOf i = some data → exec i s = .next t →
    let used := s.engine.bytes.toNat % 8
    t.engine.active = s.engine.active ∧ t.port = s.port ∧ t.responses = s.responses ∧
    (∀ a, 8 ≤ a → s.engine.buf.wf → t.engine.buf.read a = s.engine.buf.read a) ∧
    (used + data.length < 8 → t.engine.v = s.engine.v ∧
      ∀ a, a < used ∨ used + data.length ≤ a → t.engine.buf.read a = s.engine.buf.read a)

/-- The chunking law (spec/40_init_update_final.md rule R58): UPDATE(b) after UPDATE(a) is UPDATE(a ++ b), the whole state
equal, at every round count and for the machine's command. The invariant rules out records no run reaches, whose BUF
holds stale bytes above the valid ones (spec/10_state.md rule R24). -/
def Obligations.ChunkingLaw : Prop :=
  (∀ (c : Config) (a b : List Byte) (e : Engine), e.Inv → e.active = true →
    updateEngine c b (updateEngine c a e) = updateEngine c (a ++ b) e) ∧
  (∀ (a b : List Byte) (s : State), s.Inv → s.engine.active = true →
    ∃ t u, exec (.update a) s = .next t ∧ exec (.update b) t = .next u ∧ exec (.update (a ++ b)) s = .next u)

/-- `UPDATE* s` (spec/30_encoding.md rule R51): `ceil(L / 8)` well-formed UPDATE commands, the j-th carrying
`s[8j .. min(8j+7, L-1)]`; any other cut into beats of 0 to 8 bytes leaves the same state. -/
def Obligations.UpdateStarExpandsAnyString : Prop :=
  ∀ s : List Byte,
    (updateStar s).length = (s.length + 7) / 8 ∧
    (∀ i ∈ updateStar s, i.wellFormed = true) ∧
    (∀ j, j < (s.length + 7) / 8 →
      ((updateStar s)[j]?).bind beatOf = some ((s.drop (8 * j)).take (min (8 * j + 7) (s.length - 1) + 1 - 8 * j))) ∧
    (∀ (is : List Instr) (beats : List (List Byte)) (m : State), is.map beatOf = beats.map some → beats.flatten = s →
      (∀ beat ∈ beats, beat.length ≤ 8) → m.Inv → m.engine.active = true →
      ∃ t, execAll (updateStar s) m = .next t ∧ execAll is m = .next t)

/-! ## FINAL -/

/-- FINAL, the seven steps of spec/40_init_update_final.md rule R59: one response, the fold after the final rounds, and
every item of the record wiped. -/
def Obligations.FinalAnswersAndWipes : Prop :=
  ∀ s : State, s.engine.active = true →
    let e := s.engine
    let used := e.bytes.toNat % 8
    let padded := (List.range used).map (fun j => e.buf.read j) ++ List.replicate (7 - used) 0
      ++ [e.bytes.extractLsb' 0 8]
    let v := compress 2 e.v (le64 padded)
    let u := siprounds 4 { v with v2 := v.v2 ^^^ 0x00000000000000ff }
    exec .final s = .next
      { engine := { v := { v0 := 0, v1 := 0, v2 := 0, v3 := 0 }, buf := [], bytes := 0, active := false }
        port := s.port
        responses := s.responses ++ [(u.v0 ^^^ u.v1) ^^^ (u.v2 ^^^ u.v3)] }

/-- The final block in closed form (spec/40_init_update_final.md rule R60), independent of what BUF held above the valid
bytes. -/
def Obligations.FinalBlockClosedForm : Prop :=
  ∀ e : Engine,
    (finalBlock e).toNat = (e.bytes.toNat % 256) * 2 ^ 56 +
      ((List.range (e.bytes.toNat % 8)).map (fun i => (e.buf.read i).toNat * 2 ^ (8 * i))).sum

/-! ## Legality, and nothing raised -/

/-- Which commands have a defined step in which phase (spec/40_init_update_final.md rule R53). -/
def Obligations.LegalityTable : Prop :=
  (∀ (k0 k1 : Word) (s : State), ∃ t, exec (.init k0 k1) s = .next t) ∧
  (∀ (i : Instr) (data : List Byte) (s : State), beatOf i = some data →
    (s.engine.active = true → ∃ t, exec i s = .next t) ∧
    (s.engine.active = false → exec i s = .refused .noComputation)) ∧
  (∀ s : State, (s.engine.active = true → ∃ t, exec .final s = .next t) ∧
    (s.engine.active = false → exec .final s = .refused .noComputation))

/-- The engine raises no exception, fault, trap or error of any kind (spec/60_exceptions.md rule R81): no command and no
step answers a fault, and a legal command answers a next state. -/
def Obligations.NothingIsRaised : Prop :=
  (∀ (s : State) (why : Fault), step s ≠ .fault why) ∧
  (∀ (i : Instr) (s : State) (why : Fault), exec i s ≠ .fault why) ∧
  (∀ (i : Instr) (s : State), Legal i s → ∃ t, exec i s = .next t)

/-- The lifecycle, every transition and no other (spec/70_reset_and_hazards.md rule R98): by the event at the port and
ACTIVE. -/
def Obligations.LifecycleTransitions : Prop :=
  ∀ (s : State) (ev : PortEvent) (rest : List PortEvent), s.port = ev :: rest →
    (∀ beside, ev = .reset beside →
      ∃ t, step s = .next t ∧ t.engine.active = false ∧ t.engine = Engine.zero ∧ t.responses = s.responses) ∧
    (∀ w, ev = .command w →
      (∀ k0 k1, decode w = .ok (.init k0 k1) →
        ∃ t, step s = .next t ∧ t.engine.active = true ∧ t.engine = initEngine k0 k1 ∧ t.responses = s.responses) ∧
      (∀ i data, decode w = .ok i → beatOf i = some data →
        (s.engine.active = true → ∃ t, step s = .next t ∧ t.engine.active = true ∧
          t.engine = updateEngine Config.sipHash24 data s.engine ∧ t.responses = s.responses) ∧
        (s.engine.active = false → step s = .refused .noComputation)) ∧
      (decode w = .ok .final →
        (s.engine.active = true → ∃ t, step s = .next t ∧ t.engine.active = false ∧ t.engine = Engine.zero ∧
          ∃ d, t.responses = s.responses ++ [d]) ∧
        (s.engine.active = false → step s = .refused .noComputation)) ∧
      (∀ why, decode w = .error why → step s = .refused (.reservedWord why)))

/-- A run is clean exactly when the host keeps the order, and a clean run gives one response per FINAL, no more and no
fewer (spec/70_reset_and_hazards.md rule R106). -/
def Obligations.CleanRunsAreTheOrderedOnes : Prop :=
  ∀ (evs : List PortEvent) (s : State),
    (CleanRun evs s ↔ hostKeepsOrder s.engine.active evs = true) ∧
    (∀ t, runEvents evs s = .next t →
      ∃ ds : List Word, t.responses = s.responses ++ ds ∧ ds.length = finalCount evs)

/-- One response per FINAL, none from anything else, in order; what is presented is taken one event at a time
(spec/30_encoding.md rule R46). -/
def Obligations.ResponsesComeOnlyFromFinal : Prop :=
  ∀ s t : State, step s = .next t →
    t.port = s.port.tail ∧
    ((∃ w rest, s.port = .command w :: rest ∧ decode w = .ok .final ∧
        t.responses = s.responses ++ [finalDigest Config.sipHash24 s.engine]) ∨
      ((∀ w rest, s.port = .command w :: rest → decode w ≠ .ok .final) ∧ t.responses = s.responses))

/-! ## The invariant -/

/-- Every step keeps the invariant: BUF canonical with every address in 0..7 (spec/20_memory.md rule R34), zero above the
valid bytes (spec/10_state.md rule R24), and the record `ZERO` whenever ACTIVE = 0 (spec/10_state.md rule R27). -/
def Obligations.InvariantIsKept : Prop :=
  ∀ s t : State, s.Inv → step s = .next t → t.Inv

/-- The invariant holds after reset. -/
def Obligations.InvariantHoldsAtReset : Prop := State.reset.Inv

/-! ## The round primitives -/

/-- SIPROUND as a function of its four inputs, with single assignment (spec/41_round_primitives.md rule R70). -/
def Obligations.SiproundStraightLine : Prop :=
  ∀ a b c d : Word,
    let a1 := a + b
    let c1 := c + d
    let b1 := b.rotateLeft 13 ^^^ a1
    let d1 := d.rotateLeft 16 ^^^ c1
    let a2 := a1.rotateLeft 32
    let c2 := c1 + b1
    let a3 := a2 + d1
    let b2 := b1.rotateLeft 17 ^^^ c2
    let d2 := d1.rotateLeft 21 ^^^ a3
    let c3 := c2.rotateLeft 32
    sipround { v0 := a, v1 := b, v2 := c, v3 := d } = { v0 := a3, v1 := b2, v2 := c3, v3 := d2 }

/-- SIPROUND is a permutation of the 2^256 values of the state words, and the lines undone from 8 back to 1 are its inverse
(spec/41_round_primitives.md rule R71). -/
def Obligations.SiproundIsAPermutation : Prop :=
  Function.Bijective sipround ∧ (∀ v, sipunround (sipround v) = v) ∧ (∀ v, sipround (sipunround v) = v)

/-- SIPROUNDS(n) applies SIPROUND n times in sequence (spec/41_round_primitives.md rule R64): none at 0, and a + b rounds
are a rounds, then b. -/
def Obligations.SiproundsCompose : Prop :=
  (∀ v, siprounds 0 v = v) ∧ (∀ n v, siprounds (n + 1) v = sipround (siprounds n v)) ∧
  (∀ a b v, siprounds (a + b) v = siprounds b (siprounds a v))

/-- COMPRESS(m) at any round count (spec/41_round_primitives.md rule R63); at RC = 0 only V3 and V0 change. -/
def Obligations.CompressIsXorRoundsXor : Prop :=
  (∀ (rc : Nat) (v : StateWords) (m : Word),
    let u := siprounds rc { v with v3 := v.v3 ^^^ m }
    compress rc v m = { u with v0 := u.v0 ^^^ m }) ∧
  (∀ (v : StateWords) (m : Word), compress 0 v m = { v with v3 := v.v3 ^^^ m, v0 := v.v0 ^^^ m })

/-- Absorbing a block loses nothing: at every round count, for a fixed block, COMPRESS is a permutation of the state words
(from spec/41_round_primitives.md rules R63, R71). -/
def Obligations.CompressIsAPermutation : Prop :=
  ∀ (rc : Nat) (m : Word), Function.Bijective (fun v => compress rc v m)

/-- The all-zero words are a fixed point of SIPROUND, of SIPROUNDS(n) and of COMPRESS(0), for every n
(spec/41_round_primitives.md rule R74). -/
def Obligations.ZeroWordsAreAFixedPoint : Prop :=
  let zero : StateWords := { v0 := 0, v1 := 0, v2 := 0, v3 := 0 }
  sipround zero = zero ∧ (∀ n, siprounds n zero = zero) ∧ (∀ rc, compress rc zero 0 = zero)

/-- Rotation (spec/41_round_primitives.md rule R67): bit i of a moves to bit (i + n) mod 64; 32 swaps the halves; rotr
undoes it. -/
def Obligations.RotationMovesEveryBit : Prop :=
  (∀ (a : Word) (n i : Nat), 0 < n → n < 64 → i < 64 → (rotl a n).getLsbD ((i + n) % 64) = a.getLsbD i) ∧
  (∀ a : Word, BitVec.extractLsb' 0 32 (rotl a 32) = BitVec.extractLsb' 32 32 a ∧
    BitVec.extractLsb' 32 32 (rotl a 32) = BitVec.extractLsb' 0 32 a) ∧
  (∀ (a : Word) (n : Nat), 0 < n → n < 64 → rotr (rotl a n) n = a)

/-- FOLD (spec/41_round_primitives.md rule R73): the xor of the four words, in any bracketing, unchanged by swapping any
two words, 0 on the all-zero words. -/
def Obligations.FoldIsTheXorOfTheWords : Prop :=
  (∀ v, fold v = (v.v0 ^^^ v.v1) ^^^ (v.v2 ^^^ v.v3) ∧ fold v = v.v0 ^^^ v.v1 ^^^ v.v2 ^^^ v.v3) ∧
  (∀ v, fold { v with v0 := v.v1, v1 := v.v0 } = fold v ∧ fold { v with v0 := v.v2, v2 := v.v0 } = fold v ∧
    fold { v with v0 := v.v3, v3 := v.v0 } = fold v ∧ fold { v with v1 := v.v2, v2 := v.v1 } = fold v ∧
    fold { v with v1 := v.v3, v3 := v.v1 } = fold v ∧ fold { v with v2 := v.v3, v3 := v.v2 } = fold v) ∧
  fold { v0 := 0, v1 := 0, v2 := 0, v3 := 0 } = 0

/-! ## Byte order -/

/-- Little-endian everywhere (spec/00_scope.md rule R12, spec/20_memory.md rules R28, R30): the block word is the sum over i
of `b[i] * 2^(8i)`, `BYTES_LE` is its inverse both ways, the word BUF gives is that of its eight bytes, and the
serialized digest has byte i at `d[8i+7:8i]`. -/
def Obligations.WordsAreLittleEndian : Prop :=
  (∀ b : List Byte, b.length = 8 →
    (le64 b).toNat = ((List.range 8).map (fun i => (b.getD i 0).toNat * 2 ^ (8 * i))).sum ∧ bytesLE (le64 b) = b) ∧
  (∀ w : Word, le64 (bytesLE w) = w) ∧
  (∀ m : Memory, m.blockWord = le64 [m.read 0, m.read 1, m.read 2, m.read 3, m.read 4, m.read 5, m.read 6, m.read 7]) ∧
  (∀ (d : Word) (i : Nat), i < 8 → (digestBytes d).getD i 0 = d.extractLsb' (8 * i) 8)

/-- `MemRead` and `MemWrite` on BUF (spec/00_scope.md rule R12): inside the 8 bytes, a value written reads back, and the
other bytes read as before. -/
def Obligations.MemWriteReadsBack : Prop :=
  ∀ (m : Memory) (a n : Nat) (v : BitVec (8 * n)), a + n ≤ 8 →
    (m.memWrite a n v).memRead a n = v ∧
    (∀ i, i < n → (m.memWrite a n v).read (a + i) = v.extractLsb' (8 * i) 8) ∧
    (∀ b, b < a ∨ a + n ≤ b → (m.memWrite a n v).read b = m.read b)

/-! ## The function computed -/

/-- The record in mid-stream (spec/42_oneshot.md rule R79): after INIT and any UPDATEs whose bytes concatenate to s, it is
a function of the key and s alone; BYTES holds L modulo 2^64, which is L below 2^64. At every round count the record is
`streamEngine`. -/
def Obligations.MidStreamRecord : Prop :=
  (∀ (c : Config) (k0 k1 : Word) (beats : List (List Byte)),
    beats.foldl (fun e beat => updateEngine c beat e) (initEngine k0 k1) = streamEngine c k0 k1 beats.flatten) ∧
  ∀ (k0 k1 : Word) (is : List Instr) (beats : List (List Byte)) (m : State), is.map beatOf = beats.map some →
    let s := beats.flatten
    let w := s.length / 8
    let r := s.length % 8
    ∃ t, execAll (.init k0 k1 :: is) m = .next t ∧
      t.engine.v = ((List.range w).map (fun j => le64 ((s.drop (8 * j)).take 8))).foldl (compress 2)
        { v0 := 0x736f6d6570736575 ^^^ k0, v1 := 0x646f72616e646f6d ^^^ k1,
          v2 := 0x6c7967656e657261 ^^^ k0, v3 := 0x7465646279746573 ^^^ k1 } ∧
      (∀ a, t.engine.buf.read a = if a < r then s.getD (8 * w + a) 0 else 0) ∧
      t.engine.bytes.toNat = s.length % 2 ^ 64 ∧ (s.length < 2 ^ 64 → t.engine.bytes.toNat = s.length) ∧
      t.engine.active = true ∧ t.port = m.port ∧ t.responses = m.responses ∧
      t.engine = streamEngine Config.sipHash24 k0 k1 s

/-- The function computed (spec/42_oneshot.md rule R76), through the command words and the machine's own steps: whatever
state the engine is in, whatever the cut of the message into UPDATE words, INIT, the UPDATEs and FINAL answer exactly one
response, `SipHash(2, 4, k0, k1, s)`, and leave `ZERO`. No bound on the length of s is needed: when BYTES wraps, the digest
is that of the true message (spec/70_reset_and_hazards.md rule R103). The record's own operations give
`SipHash(RC, RF, k0, k1, s)` at every RC and RF. -/
def Obligations.DigestIsSipHashOfTheMessage : Prop :=
  (∀ (c : Config) (k0 k1 : Word) (beats : List (List Byte)),
    finalDigest c (beats.foldl (fun e beat => updateEngine c beat e) (initEngine k0 k1))
      = sipHash c k0 k1 beats.flatten) ∧
  ∀ (k0 k1 : Word) (is : List Instr) (beats : List (List Byte)) (rest : List PortEvent) (m : State),
    is.map beatOf = beats.map some → (∀ i ∈ is, i.wellFormed = true) →
    m.port = (Instr.init k0 k1 :: is ++ [Instr.final]).map (fun i => PortEvent.command (encode i)) ++ rest →
    Sys2Proof.core.run (is.length + 2) m = .next
      { engine := Engine.zero, port := rest,
        responses := m.responses ++ [sipHash Config.sipHash24 k0 k1 beats.flatten] }

/-- ONESHOT (spec/42_oneshot.md rule R75): legal in every state, one response, `ZERO` afterwards. -/
def Obligations.OneshotReturnsTheDigest : Prop :=
  ∀ (k0 k1 : Word) (s : List Byte) (m : State),
    oneshot k0 k1 s = .init k0 k1 :: (updateStar s ++ [.final]) ∧
    execAll (oneshot k0 k1 s) m = .next
      { engine := Engine.zero, port := m.port,
        responses := m.responses ++ [sipHash Config.sipHash24 k0 k1 s] }

/-- Streaming equivalence (spec/42_oneshot.md rule R77): for every key, every byte string and every way of cutting it into
pieces of any length, empty ones allowed, the streaming sequence answers what ONESHOT answers. -/
def Obligations.StreamingEquivalence : Prop :=
  ∀ (k0 k1 : Word) (pieces : List (List Byte)) (m : State), ∃ d,
    (∃ t, execAll (.init k0 k1 :: pieces.flatMap updateStar ++ [.final]) m = .next t ∧
      t.responses = m.responses ++ [d]) ∧
    (∃ t, execAll (oneshot k0 k1 pieces.flatten) m = .next t ∧ t.responses = m.responses ++ [d])

/-- With RC = RF = 0 the digest is one constant for every key and message (spec/95_test_vectors.md section 6): every block
and both key halves cancel in the fold. -/
def Obligations.ZeroRoundsGiveOneDigest : Prop :=
  ∀ (k0 k1 : Word) (s : List Byte), sipHash { rc := 0, rf := 0 } k0 k1 s = 0x0f1c1c0309061df5

/-! ## What does not depend on the data -/

/-- Which command is refused, how ACTIVE moves and how many responses there are depend on the headers alone: not on the
key, the data, BUF or the state words (spec/41_round_primitives.md rule R72, spec/60_exceptions.md rule R82). -/
def Obligations.RefusalsIgnoreTheData : Prop :=
  ∀ (as bs : List PortEvent) (s t : State),
    List.Forall₂ SameHeader as bs →
    s.engine.active = t.engine.active →
    (∀ why, runEvents as s = .refused why ↔ runEvents bs t = .refused why) ∧
    (∀ s', runEvents as s = .next s' → ∃ t', runEvents bs t = .next t' ∧ s'.engine.active = t'.engine.active ∧
      ∃ ds ds' : List Word, s'.responses = s.responses ++ ds ∧ t'.responses = t.responses ++ ds' ∧
        ds.length = ds'.length)

/-- Before a FINAL the host learns nothing of the key or the data: two runs without FINAL whose words have the same headers
show the same (spec/10_state.md rule R25). -/
def Obligations.NothingShowsBeforeFinal : Prop :=
  ∀ (as bs : List PortEvent) (s t s' t' : State),
    List.Forall₂ SameHeader as bs → (∀ ev ∈ as, NotFinal ev) →
    s.observed = t.observed → runEvents as s = .next s' → runEvents bs t = .next t' → s'.observed = t'.observed

/-- Every legal command is its list of primitive operations run in order (spec/41_round_primitives.md rule R72): the record,
the response and the ports come out the same, whatever the temporary block word held. -/
def Obligations.MicroOpsRefineExec : Prop :=
  ∀ (i : Instr) (s : State) (block : Word), Legal i s →
    let p := runMicroOps (microOps Config.sipHash24 (s.engine.bytes.toNat % 8) i)
      { engine := s.engine, block := block, out := [] }
    exec i s = .next { engine := p.engine, port := s.port, responses := s.responses ++ p.out }

/-- Which operations a command performs, and which BUF indices it writes, depend on its `op` and n and on `used`, RC and RF
only (spec/41_round_primitives.md rule R72): two words with the same header have the same shape. -/
def Obligations.OperationShapeIgnoresTheData : Prop :=
  ∀ (c : Config) (used : Nat) (w w' : CmdWord) (i i' : Instr), decode w = .ok i → decode w' = .ok i' →
    CmdWord.header w = CmdWord.header w' →
    (microOps c used i).map MicroOp.shape = (microOps c used i').map MicroOp.shape

/-- The work of a command and of a message, in SIPROUNDs (spec/70_reset_and_hazards.md rule R107): INIT 0; UPDATE RC for
each block it completes, at most one in one command; FINAL RC + RF; a whole message of L bytes, however cut,
`(floor(L/8) + 1) * RC + RF`. -/
def Obligations.RoundsPerMessage : Prop :=
  ∀ c : Config,
    (∀ (used : Nat) (k0 k1 : Word), roundCount c used (.init k0 k1) = 0) ∧
    (∀ (used : Nat) (i : Instr) (data : List Byte), used < 8 → beatOf i = some data →
      roundCount c used i = ((used + data.length) / 8) * c.rc ∧
      (data.length ≤ 8 → roundCount c used i = if used + data.length < 8 then 0 else c.rc)) ∧
    (∀ used : Nat, roundCount c used .final = c.rc + c.rf) ∧
    (∀ (is : List Instr) (beats : List (List Byte)), is.map beatOf = beats.map some →
      (is.zipIdx.map (fun p => roundCount c ((beats.take p.2).flatten.length % 8) p.1)).sum
          + roundCount c (beats.flatten.length % 8) .final
        = (beats.flatten.length / 8 + 1) * c.rc + c.rf)

/-! ## The engine at any round counts -/

/-- RC and RF are an argument of the model (spec/00_scope.md rules R6, R7), and the machine of the other statements is the
instance RC = 2, RF = 4: its commands, its step and its core are those of the engine at these counts. -/
def Obligations.NamedHardwareIsAnInstance : Prop :=
  Config.sipHash24.rc = 2 ∧ Config.sipHash24.rf = 4 ∧
  (∀ (i : Instr) (s : State), exec i s = execAt Config.sipHash24 i s) ∧
  (∀ s : State, step s = stepAt Config.sipHash24 s) ∧
  Sys2Proof.core = coreAt Config.sipHash24

/-- The commands at every RC and RF, zero included (spec/00_scope.md rules R6, R7): what each writes, that UPDATE and FINAL
need ACTIVE = 1, and the step of the engine on a command word. INIT is the same at every count. -/
def Obligations.CommandsAtEveryRoundCount : Prop :=
  ∀ c : Config,
    (∀ (s : State) (w : CmdWord) (rest : List PortEvent) (i : Instr),
      s.port = .command w :: rest → decode w = .ok i → stepAt c s = execAt c i { s with port := rest }) ∧
    (∀ (k0 k1 : Word) (s : State), execAt c (.init k0 k1) s = exec (.init k0 k1) s) ∧
    (∀ (i : Instr) (data : List Byte) (s : State), beatOf i = some data → s.engine.active = true → s.Inv →
      let e := s.engine
      let used := e.bytes.toNat % 8
      let all := (List.range used).map (fun j => e.buf.read j) ++ data
      let blocks := (used + data.length) / 8
      ∃ t, execAt c i s = .next t ∧
        t.engine.v = ((List.range blocks).map (fun j => le64 ((all.drop (8 * j)).take 8))).foldl (compress c.rc) e.v ∧
        (∀ a, t.engine.buf.read a = if a < (used + data.length) % 8 then all.getD (8 * blocks + a) 0 else 0) ∧
        t.engine.bytes = e.bytes + BitVec.ofNat 64 data.length ∧
        t.engine.active = true ∧ t.port = s.port ∧ t.responses = s.responses) ∧
    (∀ s : State, s.engine.active = true →
      let e := s.engine
      let used := e.bytes.toNat % 8
      let padded := (List.range used).map (fun j => e.buf.read j) ++ List.replicate (7 - used) 0
        ++ [e.bytes.extractLsb' 0 8]
      let v := compress c.rc e.v (le64 padded)
      let u := siprounds c.rf { v with v2 := v.v2 ^^^ 0x00000000000000ff }
      execAt c .final s = .next
        { engine := { v := { v0 := 0, v1 := 0, v2 := 0, v3 := 0 }, buf := [], bytes := 0, active := false }
          port := s.port
          responses := s.responses ++ [(u.v0 ^^^ u.v1) ^^^ (u.v2 ^^^ u.v3)] }) ∧
    (∀ s : State, s.engine.active = false →
      execAt c .final s = .refused .noComputation ∧
      ∀ (i : Instr) (data : List Byte), beatOf i = some data → execAt c i s = .refused .noComputation)

/-- Every step keeps the invariant at every RC and RF: it speaks of BUF and ACTIVE, which no round touches
(spec/10_state.md rules R24, R27; spec/20_memory.md rule R34). -/
def Obligations.InvariantAtEveryRoundCount : Prop :=
  ∀ (c : Config) (s t : State), s.Inv → stepAt c s = .next t → t.Inv

/-- An engine of any RC and RF, from any state, whatever the cut of the message into UPDATE words, answers INIT, the
UPDATEs and FINAL with exactly one response, `SipHash(RC, RF, k0, k1, s)`, and leaves `ZERO`; and so does ONESHOT
(spec/42_oneshot.md rules R75, R76, at the counts of spec/00_scope.md rules R6, R7). With RC = RF = 0 the response is one
constant (spec/95_test_vectors.md section 6). -/
def Obligations.DigestAtEveryRoundCount : Prop :=
  (∀ (c : Config) (k0 k1 : Word) (is : List Instr) (beats : List (List Byte)) (rest : List PortEvent) (m : State),
    is.map beatOf = beats.map some → (∀ i ∈ is, i.wellFormed = true) →
    m.port = (Instr.init k0 k1 :: is ++ [Instr.final]).map (fun i => PortEvent.command (encode i)) ++ rest →
    (coreAt c).run (is.length + 2) m = .next
      { engine := Engine.zero, port := rest, responses := m.responses ++ [sipHash c k0 k1 beats.flatten] }) ∧
  (∀ (c : Config) (k0 k1 : Word) (s : List Byte) (m : State),
    execAllAt c (oneshot k0 k1 s) m = .next
      { engine := Engine.zero, port := m.port, responses := m.responses ++ [sipHash c k0 k1 s] }) ∧
  (∀ (k0 k1 : Word) (s : List Byte) (m : State),
    execAllAt { rc := 0, rf := 0 } (oneshot k0 k1 s) m = .next
      { engine := Engine.zero, port := m.port, responses := m.responses ++ [0x0f1c1c0309061df5] })

/-- Every legal command of an engine of any RC and RF is its list of primitive operations at those counts run in order
(spec/41_round_primitives.md rule R72). -/
def Obligations.MicroOpsAtEveryRoundCount : Prop :=
  ∀ (c : Config) (i : Instr) (s : State) (block : Word), Legal i s →
    let p := runMicroOps (microOps c (s.engine.bytes.toNat % 8) i) { engine := s.engine, block := block, out := [] }
    execAt c i s = .next { engine := p.engine, port := s.port, responses := s.responses ++ p.out }
end

