-- ==== Sys2Proof/Laws/Bytes.lean ====
section
/-! SUPPORT. Little-endian conversion: lengths, bounds, concatenation, and the lanes of a word built from bytes. -/

namespace Sys2Proof.Machine

@[simp] theorem leNat_nil : leNat [] = 0 := rfl

@[simp] theorem leNat_cons (b : Byte) (bs : List Byte) : leNat (b :: bs) = b.toNat + 256 * leNat bs := rfl

/-- The earlier bytes take the lower places. -/
theorem leNat_append (as bs : List Byte) : leNat (as ++ bs) = leNat as + 2 ^ (8 * as.length) * leNat bs := by
  induction as with
  | nil => simp
  | cons a as ih =>
    rw [List.cons_append, leNat_cons, ih, leNat_cons, List.length_cons, Nat.mul_succ, Nat.pow_add]
    ring

theorem leNat_lt (bs : List Byte) : leNat bs < 2 ^ (8 * bs.length) := by
  induction bs with
  | nil => simp
  | cons b bs ih =>
    have hb : b.toNat < 256 := b.isLt
    rw [leNat_cons, List.length_cons, Nat.mul_succ, Nat.pow_add]
    omega

/-- Zero bytes after a byte string do not change its value. -/
@[simp] theorem leNat_replicate_zero (n : Nat) : leNat (List.replicate n 0#8) = 0 := by
  induction n with
  | zero => rfl
  | succ n ih => simpa [List.replicate_succ] using ih

theorem le64_toNat {bs : List Byte} (h : bs.length ≤ 8) : (le64 bs).toNat = leNat bs := by
  have h1 := leNat_lt bs
  have h2 : 2 ^ (8 * bs.length) ≤ 2 ^ 64 := Nat.pow_le_pow_right (by decide) (by omega)
  simp only [le64, BitVec.toNat_ofNat]
  exact Nat.mod_eq_of_lt (by omega)

@[simp] theorem lanes_length (w : Word) (n : Nat) : (lanes w n).length = n := by simp [lanes]

@[simp] theorem bytesLE_length (w : Word) : (bytesLE w).length = 8 := by simp [bytesLE]

theorem lanes_getElem (w : Word) (n i : Nat) (h : i < (lanes w n).length) : (lanes w n)[i] = laneByte w i := by
  simp [lanes]

/-- The i-th byte is what is left above the first i bytes, modulo 256. -/
theorem leNat_div_mod (bs : List Byte) (i : Nat) : leNat bs / 2 ^ (8 * i) % 256 = (bs.getD i 0).toNat := by
  induction i generalizing bs with
  | zero =>
    cases bs with
    | nil => rfl
    | cons b bs =>
      have hb : b.toNat < 256 := b.isLt
      simp only [leNat_cons, List.getD_cons_zero, Nat.mul_zero, pow_zero, Nat.div_one]
      omega
  | succ i ih =>
    cases bs with
    | nil => simp
    | cons b bs =>
      have hb : b.toNat < 256 := b.isLt
      rw [leNat_cons, Nat.mul_succ, Nat.add_comm (8 * i) 8, Nat.pow_add, ← Nat.div_div_eq_div_mul,
        List.getD_cons_succ, ← ih bs]
      congr 2
      omega

/-- Lane i of a block word is byte i of the block (spec/30_encoding.md rule R44). -/
theorem laneByte_le64 {bs : List Byte} (h : bs.length ≤ 8) (i : Nat) : laneByte (le64 bs) i = bs.getD i 0 := by
  apply BitVec.eq_of_toNat_eq
  rw [laneByte, BitVec.extractLsb'_toNat, le64_toNat h, Nat.shiftRight_eq_div_pow]
  exact leNat_div_mod bs i

end Sys2Proof.Machine
end

