-- ==== Sys2Proof/Laws/PerInstr.lean ====
section
/-! SUPPORT. A statement about the encoding, one lemma per constructor of `Instr`. -/

namespace Sys2Proof.Laws.EncodeHeader

/-- The header byte the spec gives the command's form (spec/30_encoding.md rules R43 to R45). -/
def header : Instr → BitVec 8
  | .init _ _ => 0x10
  | .update data => 0x20 + BitVec.ofNat 8 data.length
  | .updateFull _ => 0x28
  | .final => 0x30

/-- The encoder writes that header byte. -/
def Statement (i : Instr) : Prop := i.wellFormed = true → CmdWord.header (encode i) = header i

/-- The header of a word put together from its fields. -/
theorem header_cmdWord (op n : BitVec 4) (hi lo : Word) : CmdWord.header (cmdWord op n hi lo) = op ++ n := by
  apply BitVec.eq_of_getLsbD_eq
  intro i h
  simp only [CmdWord.header, cmdWord, BitVec.getLsbD_extractLsb', BitVec.getLsbD_append, h, decide_true, Bool.true_and,
    show ¬ (128 + i < 64) by omega, show ¬ (128 + i - 64 < 64) by omega, if_false,
    show 128 + i - 64 - 64 = i by omega]

theorem init (k0 k1 : Word) : Statement (.init k0 k1) := fun _ => by
  rw [encode, header_cmdWord]; rfl

theorem update (data : List Byte) : Statement (.update data) := fun h => by
  have hl : data.length ≤ 7 := by simpa [Instr.wellFormed] using h
  have key : ∀ n, n < 8 → (0x2 : BitVec 4) ++ BitVec.ofNat 4 n = 0x20 + BitVec.ofNat 8 n := by decide
  rw [encode, header_cmdWord, header]
  exact key data.length (by omega)

theorem updateFull (block : Word) : Statement (.updateFull block) := fun _ => by
  rw [encode, header_cmdWord]; rfl

theorem final : Statement .final := fun _ => by
  rw [encode, header_cmdWord]; rfl

end Sys2Proof.Laws.EncodeHeader
end

