-- ==== Sys2Proof/Laws/Decode.lean ====
section
/-! SUPPORT. The fields of a command word, and the decoder on a word put together from fields. -/

namespace Sys2Proof

open Sys2Proof.Machine

variable (op n : BitVec 4) (hi lo : Word)

@[simp] theorem op_cmdWord : CmdWord.op (cmdWord op n hi lo) = op := by
  apply BitVec.eq_of_getLsbD_eq
  intro i h
  simp only [CmdWord.op, cmdWord, BitVec.getLsbD_extractLsb', BitVec.getLsbD_append, h, decide_true, Bool.true_and,
    show ¬ (132 + i < 64) by omega, show ¬ (132 + i - 64 < 64) by omega, if_false,
    show ¬ (132 + i - 64 - 64 < 4) by omega, show 132 + i - 64 - 64 - 4 = i by omega]

@[simp] theorem count_cmdWord : CmdWord.count (cmdWord op n hi lo) = n := by
  apply BitVec.eq_of_getLsbD_eq
  intro i h
  simp only [CmdWord.count, cmdWord, BitVec.getLsbD_extractLsb', BitVec.getLsbD_append, h, decide_true, Bool.true_and,
    show ¬ (128 + i < 64) by omega, show ¬ (128 + i - 64 < 64) by omega, if_false,
    show 128 + i - 64 - 64 = i by omega, if_true]

@[simp] theorem hi_cmdWord : CmdWord.hi (cmdWord op n hi lo) = hi := by
  apply BitVec.eq_of_getLsbD_eq
  intro i h
  simp only [CmdWord.hi, cmdWord, BitVec.getLsbD_extractLsb', BitVec.getLsbD_append, h, decide_true, Bool.true_and,
    show ¬ (64 + i < 64) by omega, if_false, show 64 + i - 64 = i by omega, if_true]

@[simp] theorem lo_cmdWord : CmdWord.lo (cmdWord op n hi lo) = lo := by
  apply BitVec.eq_of_getLsbD_eq
  intro i h
  simp only [CmdWord.lo, cmdWord, BitVec.getLsbD_extractLsb', BitVec.getLsbD_append, h, decide_true, Bool.true_and,
    show 0 + i = i by omega, if_true]

/-- A word is its four fields (spec/30_encoding.md rule R41). -/
theorem word_eq (w : CmdWord) : w = cmdWord (CmdWord.op w) (CmdWord.count w) (CmdWord.hi w) (CmdWord.lo w) := by
  apply BitVec.eq_of_getLsbD_eq
  intro i h
  simp only [CmdWord.lo, CmdWord.op, CmdWord.hi, CmdWord.count, cmdWord, BitVec.getLsbD_extractLsb',
    BitVec.getLsbD_append]
  by_cases h1 : i < 64
  · simp [h1]
  · by_cases h2 : i - 64 < 64
    · simp [h1, h2, show 64 + (i - 64) = i by omega]
    · by_cases h3 : i - 64 - 64 < 4
      · simp [h1, h2, h3, show 128 + (i - 64 - 64) = i by omega]
      · simp [h1, h2, h3, show 132 + (i - 64 - 64 - 4) = i by omega, show i - 64 - 64 - 4 < 4 by omega]

theorem header_eq (w : CmdWord) : CmdWord.header w = CmdWord.op w ++ CmdWord.count w := by
  conv_lhs => rw [word_eq w]
  exact Sys2Proof.Laws.EncodeHeader.header_cmdWord _ _ _ _

/-- Words with one header have one `op` and one `n`. -/
theorem fields_of_header {w w' : CmdWord} (h : CmdWord.header w = CmdWord.header w') :
    CmdWord.op w = CmdWord.op w' ∧ CmdWord.count w = CmdWord.count w' := by
  rw [header_eq, header_eq] at h
  have h1 := congrArg (BitVec.extractLsb' 4 4) h
  have h2 := congrArg (BitVec.extractLsb' 0 4) h
  rw [BitVec.extractLsb'_append_eq_left, BitVec.extractLsb'_append_eq_left] at h1
  rw [BitVec.extractLsb'_append_eq_right, BitVec.extractLsb'_append_eq_right] at h2
  exact ⟨h1, h2⟩

/-- The decoder on the fields. -/
theorem decode_cmdWord : decode (cmdWord op n hi lo) =
    if op = 1 then
      if n.toNat = 0 then .ok (.init lo hi) else .error .initCount
    else if op = 2 then
      if n.toNat ≤ 7 then .ok (.update (lanes lo n.toNat))
      else if n.toNat = 8 then .ok (.updateFull lo)
      else .error .updateCount
    else if op = 3 then
      if n.toNat = 0 then .ok .final else .error .finalCount
    else .error .opcode := by
  unfold decode
  rw [op_cmdWord, count_cmdWord, hi_cmdWord, lo_cmdWord]

/-- The lanes of a word made from at most eight bytes are those bytes. -/
theorem lanes_le64 {bs : List Byte} (h : bs.length ≤ 8) : lanes (le64 bs) bs.length = bs := by
  refine List.ext_getElem (by simp) (fun i h1 h2 => ?_)
  rw [lanes_getElem, laneByte_le64 h, List.getD_eq_getElem?_getD, List.getElem?_eq_getElem h2]
  rfl

end Sys2Proof
end

