-- ==== Sys2Proof/Laws/Memory.lean ====
section
/-! SUPPORT. BUF as a memory: reading after writing, and the canonical form, which every operation keeps. -/

namespace Sys2Proof.Machine

@[simp] theorem Memory.read_nil (a : Nat) : Memory.read [] a = 0 := rfl

@[simp] theorem Memory.read_cleared (a : Nat) : Memory.cleared.read a = 0 := rfl

theorem Memory.read_cons (c : Host.Cell) (m : Memory) (a : Nat) :
    Memory.read (c :: m) a = if c.1 = a then c.2 else Memory.read m a := rfl

theorem Memory.read_erase (m : Memory) (a b : Nat) : (m.erase a).read b = if b = a then 0 else m.read b := by
  induction m with
  | nil => simp [Memory.erase]
  | cons c m ih =>
    unfold Memory.erase at ih ⊢
    by_cases h : c.1 = a
    · rw [List.filter_cons_of_neg (by simp [h]), ih, Memory.read_cons]
      split <;> rename_i hb
      · rfl
      · rw [if_neg (by omega)]
    · rw [List.filter_cons_of_pos (by simp [h]), Memory.read_cons, ih, Memory.read_cons]
      by_cases hb : c.1 = b
      · rw [if_pos hb, if_pos hb, if_neg (by omega)]
      · rw [if_neg hb, if_neg hb]

theorem Memory.read_insert (c : Host.Cell) (m : Memory) (h : ∀ d ∈ m, d.1 ≠ c.1) (b : Nat) :
    (m.insert c).read b = if b = c.1 then c.2 else m.read b := by
  induction m with
  | nil => simp [Memory.insert, Memory.read_cons, eq_comm]
  | cons d m ih =>
    have hd := h d (by simp)
    unfold Memory.insert
    split
    · rw [Memory.read_cons]
      simp only [eq_comm]
    · rw [Memory.read_cons, ih (fun x hx => h x (by simp [hx])), Memory.read_cons]
      by_cases hb : b = c.1
      · rw [if_neg (by omega), if_pos hb, if_pos hb]
      · rw [if_neg hb, if_neg hb]

theorem Memory.erase_ne (m : Memory) (a : Nat) : ∀ d ∈ m.erase a, d.1 ≠ a := by
  intro d hd
  simpa [Memory.erase] using (List.mem_filter.mp hd).2

/-- A read after a write: the byte written, or what was there. -/
theorem Memory.read_write (m : Memory) (a : Nat) (x : Byte) (b : Nat) :
    (m.write a x).read b = if b = a then x else m.read b := by
  unfold Memory.write
  split <;> rename_i h
  · rw [Memory.read_erase]
    split
    · exact h.symm
    · rfl
  · rw [Memory.read_insert _ _ (Memory.erase_ne m a), Memory.read_erase]
    split <;> rename_i hb
    · rfl
    · rfl

/-- A read after a byte string was written: the byte of the string there, or what was there. -/
theorem Memory.read_writeBytes (m : Memory) (a : Nat) (bs : List Byte) (b : Nat) :
    (m.writeBytes a bs).read b = if a ≤ b ∧ b < a + bs.length then bs.getD (b - a) 0 else m.read b := by
  induction bs generalizing m a with
  | nil => simp [Memory.writeBytes]
  | cons x bs ih =>
    rw [Memory.writeBytes, ih, Memory.read_write]
    by_cases h1 : b = a
    · subst h1
      rw [if_neg (by omega), if_pos rfl, if_pos (by simp), Nat.sub_self, List.getD_cons_zero]
    · by_cases h2 : a + 1 ≤ b ∧ b < a + 1 + bs.length
      · rw [if_pos h2, if_pos (by simp only [List.length_cons]; omega),
          show b - a = (b - (a + 1)) + 1 by omega, List.getD_cons_succ]
      · rw [if_neg h2, if_neg h1, if_neg (by simp only [List.length_cons]; omega)]

theorem Memory.mem_insert {c d : Host.Cell} {m : Memory} : d ∈ m.insert c ↔ d = c ∨ d ∈ m := by
  induction m with
  | nil => simp [Memory.insert]
  | cons e m ih =>
    unfold Memory.insert
    split
    · simp
    · simp only [List.mem_cons, ih]
      tauto

theorem Memory.cleared_wf : Memory.cleared.wf := by decide

theorem Memory.erase_wf {m : Memory} (h : m.wf) (a : Nat) : (m.erase a).wf :=
  ⟨h.1.filter _, fun c hc => h.2 c (List.mem_filter.mp hc).1⟩

theorem Memory.insert_sorted {c : Host.Cell} {m : Memory} (hm : m.Pairwise (fun c d => c.1 < d.1))
    (h : ∀ d ∈ m, d.1 ≠ c.1) : (m.insert c).Pairwise (fun c d => c.1 < d.1) := by
  induction m with
  | nil => simp [Memory.insert]
  | cons e m ih =>
    obtain ⟨he, hm⟩ := List.pairwise_cons.mp hm
    have hne := h e (by simp)
    unfold Memory.insert
    split <;> rename_i hlt
    · refine List.pairwise_cons.mpr ⟨fun d hd => ?_, List.pairwise_cons.mpr ⟨he, hm⟩⟩
      rcases List.mem_cons.mp hd with rfl | hd
      · exact hlt
      · exact lt_trans hlt (he d hd)
    · refine List.pairwise_cons.mpr ⟨fun d hd => ?_, ih hm (fun d hd => h d (by simp [hd]))⟩
      rcases Memory.mem_insert.mp hd with rfl | hd
      · omega
      · exact he d hd

/-- A write of one of the 8 cells keeps the canonical form. -/
theorem Memory.write_wf {m : Memory} (h : m.wf) {a : Nat} (ha : a < 8) (x : Byte) : (m.write a x).wf := by
  have he := Memory.erase_wf h a
  unfold Memory.write
  split <;> rename_i hx
  · exact he
  · refine ⟨Memory.insert_sorted he.1 (Memory.erase_ne m a), fun c hc => ?_⟩
    rcases Memory.mem_insert.mp hc with rfl | hc
    · exact ⟨ha, hx⟩
    · exact he.2 c hc

/-- A byte string written inside BUF keeps the canonical form. -/
theorem Memory.writeBytes_wf {m : Memory} (h : m.wf) {a : Nat} {bs : List Byte} (ha : a + bs.length ≤ 8) :
    (m.writeBytes a bs).wf := by
  induction bs generalizing m a with
  | nil => exact h
  | cons x bs ih =>
    simp only [List.length_cons] at ha
    exact ih (Memory.write_wf h (by omega) x) (by omega)

/-- The zero fill inside BUF keeps the canonical form. -/
theorem Memory.zeroFill_wf {m : Memory} (h : m.wf) {a n : Nat} (ha : a + n ≤ 8) : (m.zeroFill a n).wf :=
  Memory.writeBytes_wf h (by simpa using ha)

/-- A little-endian value written inside BUF keeps the canonical form. -/
theorem Memory.memWrite_wf {m : Memory} (h : m.wf) {a n : Nat} (ha : a + n ≤ 8) (v : BitVec (8 * n)) :
    (m.memWrite a n v).wf :=
  Memory.writeBytes_wf h (by simpa using ha)

theorem Memory.read_eq_zero {m : Memory} {a : Nat} (h : ∀ c ∈ m, c.1 ≠ a) : m.read a = 0 := by
  induction m with
  | nil => rfl
  | cons c m ih =>
    rw [Memory.read_cons, if_neg (h c (by simp))]
    exact ih (fun d hd => h d (by simp [hd]))

theorem Memory.read_ge {m : Memory} (h : m.wf) {a : Nat} (ha : 8 ≤ a) : m.read a = 0 :=
  Memory.read_eq_zero (fun c hc => by have := (h.2 c hc).1; omega)

theorem Memory.wf_tail {c : Host.Cell} {m : Memory} (h : Memory.wf (c :: m)) : m.wf :=
  ⟨(List.pairwise_cons.mp h.1).2, fun d hd => h.2 d (by simp [hd])⟩

theorem Memory.read_below {c : Host.Cell} {m : Memory} (h : Memory.wf (c :: m)) {a : Nat} (ha : a ≤ c.1) :
    m.read a = 0 :=
  Memory.read_eq_zero (fun d hd => by have := (List.pairwise_cons.mp h.1).1 d hd; omega)

/-- Two memories in canonical form that read the same are the same data. -/
theorem Memory.ext_of_wf {m n : Memory} (hm : m.wf) (hn : n.wf) (h : ∀ a, m.read a = n.read a) : m = n := by
  induction m generalizing n with
  | nil =>
    cases n with
    | nil => rfl
    | cons d n =>
      have := h d.1
      rw [Memory.read_nil, Memory.read_cons, if_pos rfl] at this
      exact absurd this.symm (hn.2 d (by simp)).2
  | cons c m ih =>
    have hc := (hm.2 c (by simp)).2
    cases n with
    | nil =>
      have := h c.1
      rw [Memory.read_nil, Memory.read_cons, if_pos rfl] at this
      exact absurd this hc
    | cons d n =>
      have hd := (hn.2 d (by simp)).2
      have hcd : c.1 = d.1 := by
        rcases Nat.lt_trichotomy c.1 d.1 with hlt | heq | hlt
        · have := h c.1
          rw [Memory.read_cons, if_pos rfl, Memory.read_cons, if_neg (by omega),
            Memory.read_below hn (by omega)] at this
          exact absurd this hc
        · exact heq
        · have := h d.1
          rw [Memory.read_cons, if_neg (by omega), Memory.read_below hm (by omega), Memory.read_cons,
            if_pos rfl] at this
          exact absurd this.symm hd
      have hval : c.2 = d.2 := by
        have := h c.1
        rwa [Memory.read_cons, if_pos rfl, Memory.read_cons, if_pos hcd.symm] at this
      have htail : m = n := by
        refine ih (Memory.wf_tail hm) (Memory.wf_tail hn) (fun a => ?_)
        have ha := h a
        rw [Memory.read_cons, Memory.read_cons] at ha
        by_cases hca : c.1 = a
        · rw [Memory.read_below hm (by omega), Memory.read_below hn (by omega)]
        · rwa [if_neg hca, if_neg (by omega)] at ha
      rw [htail, Prod.ext hcd hval]

@[simp] theorem Memory.readBytes_length (m : Memory) (a n : Nat) : (m.readBytes a n).length = n := by
  simp [Memory.readBytes]

theorem Memory.readBytes_getD (m : Memory) (a n i : Nat) (h : i < n) : (m.readBytes a n).getD i 0 = m.read (a + i) := by
  simp [Memory.readBytes, List.getD_eq_getElem?_getD, h]

/-- The block word of BUF is the little-endian word of its eight bytes. -/
theorem Memory.blockWord_eq (m : Memory) : m.blockWord = le64 (m.readBytes 0 8) := rfl

/-- A byte string of eight bytes read from BUF is settled by its bytes. -/
theorem Memory.readBytes_eq {m : Memory} {a n : Nat} {bs : List Byte} (hl : bs.length = n)
    (h : ∀ i, i < n → m.read (a + i) = bs.getD i 0) : m.readBytes a n = bs := by
  refine List.ext_getElem (by simp [hl]) (fun i h1 h2 => ?_)
  have hi : i < n := by omega
  have := h i hi
  rw [List.getD_eq_getElem?_getD, List.getElem?_eq_getElem h2] at this
  simpa [Memory.readBytes] using this

end Sys2Proof.Machine
end

