-- ==== Sys2Proof/Laws/State.lean ====
section
/-! SUPPORT. One lemma per field per update of the machine's state. -/

namespace Sys2Proof.Machine

variable (s : State) (e : Engine) (d : Word) (w : CmdWord)

@[simp] theorem State.setEngine_engine : (s.setEngine e).engine = e := rfl
@[simp] theorem State.setEngine_port : (s.setEngine e).port = s.port := rfl
@[simp] theorem State.setEngine_responses : (s.setEngine e).responses = s.responses := rfl

@[simp] theorem State.emit_engine : (s.emit d).engine = s.engine := rfl
@[simp] theorem State.emit_port : (s.emit d).port = s.port := rfl
@[simp] theorem State.emit_responses : (s.emit d).responses = s.responses ++ [d] := rfl

@[simp] theorem State.wipe_engine : s.wipe.engine = Engine.zero := rfl
@[simp] theorem State.wipe_port : s.wipe.port = s.port := rfl
@[simp] theorem State.wipe_responses : s.wipe.responses = s.responses := rfl

@[simp] theorem State.applyReset_engine : s.applyReset.engine = Engine.zero := rfl
@[simp] theorem State.applyReset_port : s.applyReset.port = s.port := rfl
@[simp] theorem State.applyReset_responses : s.applyReset.responses = s.responses := rfl

@[simp] theorem State.idle_eq : s.idle = s := rfl

@[simp] theorem Engine.zero_active : Engine.zero.active = false := rfl
@[simp] theorem Engine.zero_bytes : Engine.zero.bytes = 0 := rfl
@[simp] theorem Engine.zero_buf : Engine.zero.buf = [] := rfl

/-- Everything the legality check can do: go on with the given state while ACTIVE = 1, refuse while ACTIVE = 0. -/
theorem whenActive_cases (s t : State) :
    (s.engine.active = true ∧ whenActive s t = .next t) ∨
      (s.engine.active = false ∧ whenActive s t = .refused .noComputation) := by
  cases h : s.engine.active <;> simp [whenActive, h]

theorem whenActive_next {s t : State} (h : s.engine.active = true) : whenActive s t = .next t := by
  simp [whenActive, h]

theorem whenActive_refused {s t : State} (h : s.engine.active = false) :
    whenActive s t = .refused .noComputation := by
  simp [whenActive, h]

/-- `used` is an index of BUF (spec/10_state.md rule R18: it is in 0..7). -/
theorem Engine.used_lt (e : Engine) : e.used < 8 := Nat.mod_lt _ (by decide)

@[simp] theorem Engine.zero_used : Engine.zero.used = 0 := rfl

end Sys2Proof.Machine
end

