-- ==== Sys2Proof/Laws/Update.lean ====
section
/-! SUPPORT. Everything UPDATE does to the record, said once: the valid bytes followed by the new bytes are one string,
its whole blocks are absorbed and its tail is what BUF holds (the end condition of spec/40_init_update_final.md rule
R55). -/

namespace Sys2Proof.Machine

@[simp] theorem absorbBlocks_zero (rc : Nat) (data : List Byte) (v : StateWords) : absorbBlocks rc 0 data v = v := rfl

theorem absorbBlocks_succ (rc n : Nat) (data : List Byte) (v : StateWords) :
    absorbBlocks rc (n + 1) data v = absorbBlocks rc n (data.drop 8) (compress rc v (le64 (data.take 8))) := rfl

/-- Blocks absorbed in two goes. -/
theorem absorbBlocks_add (rc a b : Nat) (data : List Byte) (v : StateWords) :
    absorbBlocks rc (a + b) data v = absorbBlocks rc b (data.drop (8 * a)) (absorbBlocks rc a data v) := by
  induction a generalizing data v with
  | zero => simp
  | succ a ih =>
    rw [Nat.add_right_comm, absorbBlocks_succ, ih, absorbBlocks_succ, List.drop_drop]
    congr 2
    omega

/-- Only the whole blocks absorbed matter, not what follows them. -/
theorem absorbBlocks_append (rc n : Nat) (data more : List Byte) (v : StateWords) (h : 8 * n ≤ data.length) :
    absorbBlocks rc n (data ++ more) v = absorbBlocks rc n data v := by
  induction n generalizing data v with
  | zero => rfl
  | succ n ih =>
    rw [absorbBlocks_succ, absorbBlocks_succ, List.take_append_of_le_length (by omega),
      List.drop_append_of_le_length (by omega), ih _ _ (by simp; omega)]

@[simp] theorem Engine.validBytes_length (e : Engine) : e.validBytes.length = e.used := by simp [Engine.validBytes]

theorem Engine.validBytes_getD (e : Engine) {i : Nat} (h : i < e.used) : e.validBytes.getD i 0 = e.buf.read i := by
  rw [Engine.validBytes, Memory.readBytes_getD _ _ _ _ h, Nat.zero_add]

/-- Bytes read at the join of two strings. -/
theorem getD_append_byte (as bs : List Byte) (i : Nat) :
    (as ++ bs).getD i 0 = if i < as.length then as.getD i 0 else bs.getD (i - as.length) 0 := by
  split <;> rename_i h
  · simp [List.getD_eq_getElem?_getD, List.getElem?_append_left h]
  · simp [List.getD_eq_getElem?_getD, List.getElem?_append_right (Nat.le_of_not_lt h)]

/-- A canonical BUF that is zero from index `used` up is the valid bytes written into a cleared one. -/
theorem Engine.buf_eq {e : Engine} (h : e.Inv) : e.buf = Memory.cleared.writeBytes 0 e.validBytes := by
  have hu := e.used_lt
  refine Memory.ext_of_wf h.1 (Memory.writeBytes_wf Memory.cleared_wf (by simp; omega)) (fun a => ?_)
  rw [Memory.read_writeBytes, Engine.validBytes_length]
  split <;> rename_i ha
  · rw [Nat.sub_zero, Engine.validBytes_getD e (by omega)]
  · rw [Memory.read_cleared]
    by_cases h8 : a < 8
    · exact h.2.1 a h8 (by omega)
    · exact Memory.read_ge h.1 (by omega)

/-- The bytes of a topped-up BUF are the valid bytes, then the new ones. -/
theorem Engine.topUp_word (e : Engine) {head : List Byte} (h : e.used + head.length = 8) :
    (e.buf.writeBytes e.used head).blockWord = le64 (e.validBytes ++ head) := by
  rw [Memory.blockWord_eq, Memory.readBytes_eq (bs := e.validBytes ++ head) (by simp [h])]
  intro i hi
  rw [Nat.zero_add, Memory.read_writeBytes, getD_append_byte, Engine.validBytes_length]
  by_cases hu : i < e.used
  · rw [if_neg (by omega), if_pos hu, Engine.validBytes_getD e hu]
  · rw [if_pos (by omega), if_neg hu]

/-- UPDATE, whole: from a record that meets the invariant, whatever the length of the data. -/
theorem updateEngine_closed (c : Config) (data : List Byte) {e : Engine} (h : e.Inv) :
    updateEngine c data e =
      { v := absorbBlocks c.rc ((e.used + data.length) / 8) (e.validBytes ++ data) e.v
        buf := Memory.cleared.writeBytes 0 ((e.validBytes ++ data).drop (8 * ((e.used + data.length) / 8)))
        bytes := addBytes e.bytes data.length
        active := e.active } := by
  have hu := e.used_lt
  have hbuf := Engine.buf_eq h
  unfold updateEngine
  by_cases h0 : data.length = 0
  · obtain rfl := List.length_eq_zero_iff.mp h0
    have hw : (e.used + 0) / 8 = 0 := by omega
    simp only [List.length_nil, if_true, hw, List.append_nil, Nat.mul_zero, List.drop_zero, ← hbuf, absorbBlocks_zero]
    simp [addBytes]
  · rw [if_neg h0]
    by_cases hpos : e.used > 0
    · rw [if_pos hpos]
      by_cases hlt : data.length < 8 - e.used
      · have hw : (e.used + data.length) / 8 = 0 := by omega
        rw [if_pos hlt, hw, Nat.mul_zero, List.drop_zero, absorbBlocks_zero]
        have : e.buf.writeBytes e.used data = Memory.cleared.writeBytes 0 (e.validBytes ++ data) := by
          refine Memory.ext_of_wf (Memory.writeBytes_wf h.1 (by omega))
            (Memory.writeBytes_wf Memory.cleared_wf (by simp; omega)) (fun a => ?_)
          conv_lhs => rw [hbuf]
          simp only [Memory.read_writeBytes, List.length_append, Engine.validBytes_length, getD_append_byte,
            Nat.sub_zero, Nat.zero_add]
          by_cases ha : a < e.used
          · rw [if_neg (by omega), if_pos (by omega), if_pos (by omega), if_pos ha]
          · by_cases hb : a < e.used + data.length
            · rw [if_pos (by omega), if_pos (by omega), if_neg ha]
            · rw [if_neg (by omega), if_neg (by omega), if_neg (by omega)]
        rw [this]
      · have hw : (e.used + data.length) / 8 = 1 + (data.length - (8 - e.used)) / 8 := by omega
        have hhead : (data.take (8 - e.used)).length = 8 - e.used := by simp; omega
        have hfull : (e.validBytes ++ data.take (8 - e.used)).length = 8 := by simp; omega
        have hcut : e.validBytes ++ data
            = (e.validBytes ++ data.take (8 - e.used)) ++ data.drop (8 - e.used) := by
          rw [List.append_assoc, List.take_append_drop]
        rw [if_neg hlt, hw, absorbBlocks_add, hcut, Nat.mul_add]
        simp only [absorbInput, topUp, List.length_drop]
        rw [Engine.topUp_word e (by omega), ← List.drop_drop]
        simp only [Nat.mul_one, List.drop_left' hfull, absorbBlocks_succ, absorbBlocks_zero,
          List.take_left' hfull]
    · have hz : e.used = 0 := by omega
      have hv : e.validBytes = [] := by
        apply List.length_eq_zero_iff.mp
        rw [Engine.validBytes_length, hz]
      rw [if_neg hpos]
      simp only [absorbInput, hz, hv, List.nil_append, Nat.zero_add]
      rw [hbuf, hv]
      rfl

/-- UPDATE does not touch ACTIVE. -/
@[simp] theorem updateEngine_active (c : Config) (data : List Byte) (e : Engine) :
    (updateEngine c data e).active = e.active := by
  unfold updateEngine absorbInput topUp
  simp only
  split_ifs <;> rfl

/-- `used` after UPDATE. -/
theorem updateEngine_used (c : Config) (data : List Byte) {e : Engine} (h : e.Inv) :
    (updateEngine c data e).used = (e.used + data.length) % 8 := by
  rw [updateEngine_closed c data h]
  simp only [Engine.used, addBytes, BitVec.toNat_add, BitVec.toNat_ofNat]
  omega

/-- UPDATE keeps the invariant of an active record. -/
theorem updateEngine_inv (c : Config) (data : List Byte) {e : Engine} (h : e.Inv) (ha : e.active = true) :
    (updateEngine c data e).Inv := by
  have hlen : ((e.validBytes ++ data).drop (8 * ((e.used + data.length) / 8))).length
      = (e.used + data.length) % 8 := by simp; omega
  refine ⟨?_, fun a _ hused => ?_, fun hf => ?_⟩
  · rw [updateEngine_closed c data h]
    exact Memory.writeBytes_wf Memory.cleared_wf (by omega)
  · rw [updateEngine_used c data h] at hused
    rw [updateEngine_closed c data h]
    simp only
    rw [Memory.read_writeBytes, if_neg (by omega), Memory.read_cleared]
  · rw [updateEngine_active, ha] at hf
    exact absurd hf (by decide)

/-- The valid bytes after UPDATE: the tail of the valid bytes and the data. -/
theorem updateEngine_validBytes (c : Config) (data : List Byte) {e : Engine} (h : e.Inv) :
    (updateEngine c data e).validBytes = (e.validBytes ++ data).drop (8 * ((e.used + data.length) / 8)) := by
  rw [Engine.validBytes, updateEngine_used c data h]
  refine Memory.readBytes_eq (by simp; omega) (fun i hi => ?_)
  rw [updateEngine_closed c data h]
  simp only
  rw [Memory.read_writeBytes, if_pos (by simp; omega)]
  simp

/-- The blocks absorbed, as a left fold over the block words. -/
theorem absorbBlocks_eq_foldl (rc n : Nat) (data : List Byte) (v : StateWords) :
    absorbBlocks rc n data v
      = ((List.range n).map (fun j => le64 ((data.drop (8 * j)).take 8))).foldl (compress rc) v := by
  induction n generalizing data v with
  | zero => rfl
  | succ n ih =>
    rw [absorbBlocks_succ, ih, List.range_succ_eq_map, List.map_cons, List.foldl_cons, List.map_map]
    simp only [Nat.mul_zero, List.drop_zero]
    congr 1
    refine List.map_congr_left (fun j _ => ?_)
    simp only [Function.comp, List.drop_drop]
    rw [Nat.succ_eq_add_one, Nat.mul_succ, Nat.add_comm]

/-- INIT leaves a record that meets the invariant. -/
theorem initEngine_inv (k0 k1 : Word) : (initEngine k0 k1).Inv :=
  ⟨Memory.cleared_wf, fun _ _ _ => rfl, fun h => by cases h⟩

@[simp] theorem initEngine_active (k0 k1 : Word) : (initEngine k0 k1).active = true := rfl
@[simp] theorem initEngine_used (k0 k1 : Word) : (initEngine k0 k1).used = 0 := rfl
@[simp] theorem initEngine_validBytes (k0 k1 : Word) : (initEngine k0 k1).validBytes = [] := rfl

end Sys2Proof.Machine
end

