-- ==== Sys2Proof/Laws/Final.lean ====
section
/-! SUPPORT. The final block FINAL reads from the padded BUF (spec/40_init_update_final.md rule R60). -/

namespace Sys2Proof.Machine

/-- Padding stays inside BUF, so it keeps the canonical form (spec/20_memory.md rule R34). -/
theorem padBuf_wf {e : Engine} (h : e.buf.wf) : (padBuf e).wf := by
  have hu := e.used_lt
  exact Memory.write_wf (Memory.zeroFill_wf h (by omega)) (by decide) _

/-- The final block is the valid bytes, zeros, and the length byte, whatever BUF held above the valid bytes. -/
theorem finalBlock_eq (e : Engine) :
    finalBlock e = le64 (e.validBytes ++ List.replicate (7 - e.used) 0 ++ [lowByte e.bytes]) := by
  have hu := e.used_lt
  rw [finalBlock, Memory.blockWord_eq, Memory.readBytes_eq
    (bs := e.validBytes ++ List.replicate (7 - e.used) 0 ++ [lowByte e.bytes]) (by simp; omega)]
  intro i hi
  simp only [padBuf, Memory.zeroFill, Nat.zero_add, Memory.read_write, Memory.read_writeBytes, getD_append_byte,
    List.length_append, List.length_replicate, Engine.validBytes_length]
  by_cases h7 : i = 7
  · subst h7
    rw [if_pos rfl, if_neg (by omega), show 7 - (e.used + (7 - e.used)) = 0 by omega, List.getD_cons_zero]
  · rw [if_neg h7, if_pos (show i < e.used + (7 - e.used) by omega)]
    by_cases hiu : i < e.used
    · rw [if_neg (by omega), if_pos hiu, Engine.validBytes_getD e hiu]
    · rw [if_pos (by omega), if_neg hiu]

end Sys2Proof.Machine
end

