-- ==== Sys2Proof/Laws/Permutation.lean ====
section
/-! SUPPORT. Small laws of the round primitives. -/

namespace Sys2Proof.Machine

/-- `rotl` is the circular rotation of the library for the amounts the engine uses. -/
theorem rotl_eq_rotateLeft (a : Word) {n : Nat} (h : n < 64) : rotl a n = a.rotateLeft n := by
  rw [rotl, BitVec.rotateLeft_def, Nat.mod_eq_of_lt h]

theorem rotr_rotl (a : Word) {n : Nat} (h0 : 0 < n) (h : n < 64) : rotr (rotl a n) n = a := by
  rw [rotr, rotl_eq_rotateLeft _ h, rotl_eq_rotateLeft _ (by omega)]
  ext i hi
  simp only [BitVec.getElem_rotateLeft, Nat.mod_eq_of_lt h, Nat.mod_eq_of_lt (show 64 - n < 64 by omega)]
  split
  · rw [dif_neg (by omega)]; congr 1; omega
  · rw [dif_pos (by omega)]; congr 1; omega

theorem rotl_rotr (a : Word) {n : Nat} (h0 : 0 < n) (h : n < 64) : rotl (rotr a n) n = a := by
  have := rotr_rotl a (n := 64 - n) (by omega) (by omega)
  rwa [rotr, show 64 - (64 - n) = n by omega] at this

@[simp] theorem siprounds_zero (v : StateWords) : siprounds 0 v = v := rfl

theorem siprounds_succ (n : Nat) (v : StateWords) : siprounds (n + 1) v = siprounds n (sipround v) := rfl

@[simp] theorem xorV3_v0 (m : Word) (v : StateWords) : (xorV3 m v).v0 = v.v0 := rfl
@[simp] theorem xorV3_v1 (m : Word) (v : StateWords) : (xorV3 m v).v1 = v.v1 := rfl
@[simp] theorem xorV3_v2 (m : Word) (v : StateWords) : (xorV3 m v).v2 = v.v2 := rfl
@[simp] theorem xorV3_v3 (m : Word) (v : StateWords) : (xorV3 m v).v3 = v.v3 ^^^ m := rfl
@[simp] theorem xorV0_v0 (m : Word) (v : StateWords) : (xorV0 m v).v0 = v.v0 ^^^ m := rfl
@[simp] theorem xorV0_v1 (m : Word) (v : StateWords) : (xorV0 m v).v1 = v.v1 := rfl
@[simp] theorem xorV0_v2 (m : Word) (v : StateWords) : (xorV0 m v).v2 = v.v2 := rfl
@[simp] theorem xorV0_v3 (m : Word) (v : StateWords) : (xorV0 m v).v3 = v.v3 := rfl
@[simp] theorem markFinal_v0 (v : StateWords) : (markFinal v).v0 = v.v0 := rfl
@[simp] theorem markFinal_v1 (v : StateWords) : (markFinal v).v1 = v.v1 := rfl
@[simp] theorem markFinal_v2 (v : StateWords) : (markFinal v).v2 = v.v2 ^^^ 0xff#64 := rfl
@[simp] theorem markFinal_v3 (v : StateWords) : (markFinal v).v3 = v.v3 := rfl

/-- The same m twice cancels. -/
@[simp] theorem xorV3_xorV3 (m : Word) (v : StateWords) : xorV3 m (xorV3 m v) = v := by
  cases v; simp [xorV3]

@[simp] theorem xorV0_xorV0 (m : Word) (v : StateWords) : xorV0 m (xorV0 m v) = v := by
  cases v; simp [xorV0]

end Sys2Proof.Machine
end

