-- ==== Sys2Proof/Laws/MicroOps.lean ====
section
/-! SUPPORT. Lists of primitive operations, run piece by piece. -/

namespace Sys2Proof.Machine

@[simp] theorem runMicroOps_nil (p : Datapath) : runMicroOps [] p = p := rfl

theorem runMicroOps_cons (o : MicroOp) (os : List MicroOp) (p : Datapath) :
    runMicroOps (o :: os) p = runMicroOps os (MicroOp.apply p o) := rfl

theorem runMicroOps_append (as bs : List MicroOp) (p : Datapath) :
    runMicroOps (as ++ bs) p = runMicroOps bs (runMicroOps as p) := by
  simp [runMicroOps, List.foldl_append]

/-- n rounds are SIPROUNDS(n). -/
theorem runMicroOps_rounds (n : Nat) (p : Datapath) :
    runMicroOps (List.replicate n .round) p
      = { p with engine := { p.engine with v := siprounds n p.engine.v } } := by
  induction n generalizing p with
  | zero => rfl
  | succ n ih => rw [List.replicate_succ, runMicroOps_cons, ih]; rfl

/-- The operations of COMPRESS are COMPRESS of the block word. -/
theorem runMicroOps_compress (rc : Nat) (p : Datapath) :
    runMicroOps (compressOps rc) p
      = { p with engine := { p.engine with v := compress rc p.engine.v p.block } } := by
  unfold compressOps
  rw [List.cons_append, runMicroOps_cons, runMicroOps_append, runMicroOps_rounds]
  rfl

/-- Byte writes from index a up are the byte string written there. -/
theorem runMicroOps_write (a : Nat) (bs : List Byte) (p : Datapath) :
    runMicroOps (writeOps a bs) p
      = { p with engine := { p.engine with buf := p.engine.buf.writeBytes a bs } } := by
  induction bs generalizing a p with
  | nil => rfl
  | cons b bs ih => rw [writeOps, runMicroOps_cons, ih]; rfl

end Sys2Proof.Machine
end

