-- ==== Sys2Proof/Laws/Step.lean ====
section
/-! SUPPORT. What each command answers, and everything one step can do. -/

namespace Sys2Proof.Machine

theorem exec_init (k0 k1 : Word) (s : State) : exec (.init k0 k1) s = .next (s.setEngine (initEngine k0 k1)) := rfl

/-- This hardware's commands are those of the engine at RC = 2, RF = 4. -/
theorem exec_eq_execAt : exec = execAt Config.sipHash24 := by
  funext i s
  cases i <;> rfl

theorem execAt_init (c : Config) (k0 k1 : Word) (s : State) :
    execAt c (.init k0 k1) s = .next (s.setEngine (initEngine k0 k1)) := rfl

/-- Both UPDATE forms are the one UPDATE of their data bytes, at every round count. -/
theorem execAt_beat (c : Config) {i : Instr} {data : List Byte} (h : beatOf i = some data) (s : State) :
    execAt c i s = whenActive s (s.setEngine (updateEngine c data s.engine)) := by
  cases i <;> simp only [beatOf, Option.some.injEq, reduceCtorEq] at h <;> subst h <;> rfl

theorem execAt_final (c : Config) (s : State) :
    execAt c .final s = whenActive s (s.emit (finalDigest c s.engine)).wipe := rfl

/-- Both UPDATE forms are the one UPDATE of their data bytes. -/
theorem exec_beat {i : Instr} {data : List Byte} (h : beatOf i = some data) (s : State) :
    exec i s = whenActive s (s.setEngine (updateEngine Config.sipHash24 data s.engine)) := by
  rw [exec_eq_execAt, execAt_beat _ h]

theorem exec_final (s : State) :
    exec .final s = whenActive s (s.emit (finalDigest Config.sipHash24 s.engine)).wipe := rfl

/-- INIT, an UPDATE or FINAL: a command is one of the three. -/
theorem instr_cases (i : Instr) : (∃ k0 k1, i = .init k0 k1) ∨ (∃ data, beatOf i = some data) ∨ i = .final := by
  cases i <;> simp [beatOf]

theorem acceptWordBy_ok {run : Instr → State → Host.Outcome State Fault Refusal} {w : CmdWord} {i : Instr}
    (h : decode w = .ok i) (s : State) : acceptWordBy run w s = run i s := by
  rw [acceptWordBy, h]

theorem acceptWordBy_error {run : Instr → State → Host.Outcome State Fault Refusal} {w : CmdWord} {why : Reserved}
    (h : decode w = .error why) (s : State) : acceptWordBy run w s = .refused (.reservedWord why) := by
  rw [acceptWordBy, h]

theorem acceptWord_ok {w : CmdWord} {i : Instr} (h : decode w = .ok i) (s : State) : acceptWord w s = exec i s :=
  acceptWordBy_ok h s

theorem acceptWord_error {w : CmdWord} {why : Reserved} (h : decode w = .error why) (s : State) :
    acceptWord w s = .refused (.reservedWord why) :=
  acceptWordBy_error h s

@[simp] theorem acceptEvent_command (w : CmdWord) (s : State) : acceptEvent (.command w) s = acceptWord w s := rfl

@[simp] theorem acceptEvent_reset (beside : Option CmdWord) (s : State) :
    acceptEvent (.reset beside) s = .next s.applyReset := rfl

/-- Everything a command can do when it answers a next state, at every round count. -/
theorem execAt_cases {c : Config} {i : Instr} {s t : State} (h : execAt c i s = .next t) :
    (∃ k0 k1, i = .init k0 k1 ∧ t = s.setEngine (initEngine k0 k1)) ∨
      (∃ data, beatOf i = some data ∧ s.engine.active = true ∧ t = s.setEngine (updateEngine c data s.engine)) ∨
      (i = .final ∧ s.engine.active = true ∧ t = (s.emit (finalDigest c s.engine)).wipe) := by
  rcases instr_cases i with ⟨k0, k1, rfl⟩ | ⟨data, hd⟩ | rfl
  · rw [execAt_init] at h
    exact .inl ⟨k0, k1, rfl, by injection h with h; exact h.symm⟩
  · rw [execAt_beat c hd] at h
    rcases whenActive_cases s (s.setEngine (updateEngine c data s.engine)) with ⟨ha, hn⟩ | ⟨_, hn⟩
    · rw [hn] at h
      exact .inr (.inl ⟨data, hd, ha, by injection h with h; exact h.symm⟩)
    · rw [hn] at h
      exact absurd h (by simp)
  · rw [execAt_final] at h
    rcases whenActive_cases s (s.emit (finalDigest c s.engine)).wipe with ⟨ha, hn⟩ | ⟨_, hn⟩
    · rw [hn] at h
      exact .inr (.inr ⟨rfl, ha, by injection h with h; exact h.symm⟩)
    · rw [hn] at h
      exact absurd h (by simp)

/-- Everything a command can do when it answers a next state. -/
theorem exec_cases {i : Instr} {s t : State} (h : exec i s = .next t) :
    (∃ k0 k1, i = .init k0 k1 ∧ t = s.setEngine (initEngine k0 k1)) ∨
      (∃ data, beatOf i = some data ∧ s.engine.active = true ∧
        t = s.setEngine (updateEngine Config.sipHash24 data s.engine)) ∨
      (i = .final ∧ s.engine.active = true ∧ t = (s.emit (finalDigest Config.sipHash24 s.engine)).wipe) := by
  rw [exec_eq_execAt] at h
  exact execAt_cases h

/-- A command reads nothing of what the host presents next, and leaves it. -/
theorem execAt_next_port {c : Config} {i : Instr} {s t : State} (h : execAt c i s = .next t) (p : List PortEvent) :
    execAt c i { s with port := p } = .next { t with port := p } := by
  rcases execAt_cases h with ⟨k0, k1, rfl, rfl⟩ | ⟨data, hd, ha, rfl⟩ | ⟨rfl, ha, rfl⟩
  · rfl
  · rw [execAt_beat c hd, whenActive_next (s := { s with port := p }) ha]
    rfl
  · rw [execAt_final, whenActive_next (s := { s with port := p }) ha]
    rfl

theorem exec_next_port {i : Instr} {s t : State} (h : exec i s = .next t) (p : List PortEvent) :
    exec i { s with port := p } = .next { t with port := p } := by
  rw [exec_eq_execAt] at h ⊢
  exact execAt_next_port h p

/-- Everything one step can do when it answers a next state, whatever executes the commands: nothing was presented; reset;
or one decoded command. -/
theorem stepBy_cases {run : Instr → State → Host.Outcome State Fault Refusal} {s t : State} (h : stepBy run s = .next t) :
    (s.port = [] ∧ t = s) ∨
      (∃ beside rest, s.port = .reset beside :: rest ∧ t = State.applyReset { s with port := rest }) ∨
      (∃ w rest i, s.port = .command w :: rest ∧ decode w = .ok i ∧ run i { s with port := rest } = .next t) := by
  unfold stepBy at h
  cases hp : s.port with
  | nil =>
    rw [hp] at h
    exact .inl ⟨rfl, by injection h with h; exact h.symm⟩
  | cons ev rest =>
    rw [hp] at h
    cases ev with
    | reset beside => exact .inr (.inl ⟨beside, rest, rfl, by injection h with h; exact h.symm⟩)
    | command w =>
      have hw : acceptWordBy run w { s with port := rest } = .next t := h
      cases hd : decode w with
      | ok i => exact .inr (.inr ⟨w, rest, i, rfl, hd, (acceptWordBy_ok hd _).symm.trans hw⟩)
      | error why =>
        rw [acceptWordBy_error hd] at hw
        exact absurd hw (by simp)

/-- Everything one step can do when it answers a next state: nothing was presented; reset; or one decoded command. -/
theorem step_cases {s t : State} (h : step s = .next t) :
    (s.port = [] ∧ t = s) ∨
      (∃ beside rest, s.port = .reset beside :: rest ∧ t = State.applyReset { s with port := rest }) ∨
      (∃ w rest i, s.port = .command w :: rest ∧ decode w = .ok i ∧ exec i { s with port := rest } = .next t) :=
  stepBy_cases h

/-- A step with an event presented is that event accepted on the rest. -/
theorem stepBy_cons {run : Instr → State → Host.Outcome State Fault Refusal} {s : State} {ev : PortEvent}
    {rest : List PortEvent} (h : s.port = ev :: rest) : stepBy run s = acceptEventBy run ev { s with port := rest } := by
  rw [stepBy, h]

theorem step_cons {s : State} {ev : PortEvent} {rest : List PortEvent} (h : s.port = ev :: rest) :
    step s = acceptEvent ev { s with port := rest } :=
  stepBy_cons h

end Sys2Proof.Machine
end

