-- ==== Sys2Proof/Laws/Run.lean ====
section
/-! SUPPORT. Runs of the machine, one step at a time. -/

namespace Sys2Proof.Machine

@[simp] theorem andThen_next (s : State) (k : State → Host.Outcome State Fault Refusal) : andThen (.next s) k = k s := rfl

@[simp] theorem andThen_refused (why : Refusal) (k : State → Host.Outcome State Fault Refusal) :
    andThen (.refused why) k = .refused why := rfl

theorem run_succ_next {M : Host.Core} {s t : M.State} (k : Nat) (h : M.step s = .next t) :
    M.run (k + 1) s = M.run k t := by
  rw [Host.Core.run, h]

theorem run_succ_fault {M : Host.Core} {s : M.State} (k : Nat) {why : M.Fault} (h : M.step s = .fault why) :
    M.run (k + 1) s = .fault why := by
  rw [Host.Core.run, h]

theorem run_succ_refused {M : Host.Core} {s : M.State} (k : Nat) {why : M.Refusal} (h : M.step s = .refused why) :
    M.run (k + 1) s = .refused why := by
  rw [Host.Core.run, h]

@[simp] theorem core_run_zero (s : State) : Sys2Proof.core.run 0 s = .next s := rfl

/-- One step, then the rest of the run. -/
theorem core_run_succ (k : Nat) (s : State) :
    Sys2Proof.core.run (k + 1) s = andThen (step s) (Sys2Proof.core.run k) := by
  cases h : step s with
  | next t => exact run_succ_next (M := Sys2Proof.core) k h
  | fault why => exact run_succ_fault (M := Sys2Proof.core) k h
  | refused why => exact run_succ_refused (M := Sys2Proof.core) k h

@[simp] theorem coreAt_run_zero (c : Config) (s : State) : (coreAt c).run 0 s = .next s := rfl

/-- One step, then the rest of the run, at every round count. -/
theorem coreAt_run_succ (c : Config) (k : Nat) (s : State) :
    (coreAt c).run (k + 1) s = andThen (stepAt c s) ((coreAt c).run k) := by
  cases h : stepAt c s with
  | next t => exact run_succ_next (M := coreAt c) k h
  | fault why => exact run_succ_fault (M := coreAt c) k h
  | refused why => exact run_succ_refused (M := coreAt c) k h

variable {α : Type} (take : α → State → Host.Outcome State Fault Refusal)

@[simp] theorem foldAll_nil (s : State) : foldAll take [] s = .next s := rfl

theorem foldAll_cons (a : α) (as : List α) (s : State) :
    foldAll take (a :: as) s = andThen (take a s) (foldAll take as) := rfl

/-- A fold over two lists is one fold after the other. -/
theorem foldAll_append (as bs : List α) (s : State) :
    foldAll take (as ++ bs) s = andThen (foldAll take as s) (foldAll take bs) := by
  induction as generalizing s with
  | nil => rfl
  | cons a as ih =>
    rw [List.cons_append, foldAll_cons, foldAll_cons]
    cases take a s with
    | next t => exact ih t
    | fault why => rfl
    | refused why => rfl

@[simp] theorem execAll_nil (s : State) : execAll [] s = .next s := rfl

theorem execAll_cons (i : Instr) (is : List Instr) (s : State) :
    execAll (i :: is) s = andThen (exec i s) (execAll is) := rfl

@[simp] theorem runEvents_nil (s : State) : runEvents [] s = .next s := rfl

theorem runEvents_cons (ev : PortEvent) (evs : List PortEvent) (s : State) :
    runEvents (ev :: evs) s = andThen (acceptEvent ev s) (runEvents evs) := rfl

/-- This hardware's commands in order are those of the engine at RC = 2, RF = 4. -/
theorem execAll_eq_execAllAt : execAll = execAllAt Config.sipHash24 := by
  funext is s
  rw [execAll, execAllAt, exec_eq_execAt]

@[simp] theorem execAllAt_nil (c : Config) (s : State) : execAllAt c [] s = .next s := rfl

theorem execAllAt_cons (c : Config) (i : Instr) (is : List Instr) (s : State) :
    execAllAt c (i :: is) s = andThen (execAt c i s) (execAllAt c is) := rfl

end Sys2Proof.Machine
end

