-- ==== Sys2Proof/Machine/Listing.lean ====
section
/-! DEFINITION. The assembler syntax of the spec's listings (spec/30_encoding.md rule R50): notation, not behaviour. -/

namespace Sys2Proof.Machine

/-- The lowest n hexadecimal digits of a number, most significant first. -/
def hexDigits : Nat → Nat → List Char
  | 0, _ => []
  | n + 1, x => hexDigits n (x / 16) ++ [Nat.digitChar (x % 16)]

/-- A u64 literal. -/
def wordLiteral (w : Word) : List Char := ['0', 'x'] ++ hexDigits 16 w.toNat

/-- The byte literals of an UPDATE, first message byte first, each after a space. -/
def byteLiterals (bs : List Byte) : List Char := bs.flatMap (fun b => ' ' :: hexDigits 2 b.toNat)

/-- A command as the spec's listings write it. -/
def listing : Instr → List Char
  | .init k0 k1 => "INIT ".toList ++ wordLiteral k0 ++ ", ".toList ++ wordLiteral k1
  | .update data => "UPDATE".toList ++ byteLiterals data
  | .updateFull block => "UPDATE".toList ++ byteLiterals (bytesLE block)
  | .final => "FINAL".toList

end Sys2Proof.Machine
end

