-- ==== Sys2Proof/Tests/Slice0.lean ====
section
/-! SUPPORT. Tests, and witnesses that the hypotheses of the statements can be met. Expected values are those of
spec/95_test_vectors.md (named beside each test) or worked out by hand from the rules. -/

namespace Sys2Proof.Tests

open Sys2Proof Sys2Proof.Machine

/-! ## Helpers -/

/-- The test key of spec/95_test_vectors.md. -/
def k0 : Word := 0x0706050403020100
def k1 : Word := 0x0f0e0d0c0b0a0908

/-- `Vinit` and `Vm0` of spec/95_test_vectors.md section 5. -/
def vInit : StateWords := ⟨0x7469686173716475, 0x6b617f6d656e6665, 0x6b7f62616d677361, 0x7b6b696e727e6c7b⟩
def vM0 : StateWords := ⟨0x4a017198de0a59e0, 0x0d52f6f62a4f59a4, 0x634cb3577b01fd3d, 0xa5224d6f55c7d9c8⟩

/-- The machine with an active record: words, the bytes in BUF from index 0, BYTES. -/
def active (v : StateWords) (bytes : List Byte) (count : Word) : State :=
  { engine := { v := v, buf := Memory.cleared.writeBytes 0 bytes, bytes := count, active := true }
    port := [], responses := [] }

/-- What a command answers, when it answers a state. -/
def after (o : Host.Outcome State Fault Refusal) : Option State :=
  match o with
  | .next s => some s
  | .fault _ => none
  | .refused _ => none

/-- Why a command is refused, when it is. -/
def refusal (o : Host.Outcome State Fault Refusal) : Option Refusal :=
  match o with
  | .next _ => none
  | .fault _ => none
  | .refused why => some why

/-! ## WellFormed: an ill-formed term for its one check -/

theorem test_update_of_eight_bytes_is_ill_formed : (Instr.update [0, 1, 2, 3, 4, 5, 6, 7]).wellFormed = false := by decide
theorem test_update_of_seven_bytes_is_well_formed : (Instr.update [0, 1, 2, 3, 4, 5, 6]).wellFormed = true := by decide

/-! ## Decoding words written out from spec/30_encoding.md (programs P2, P4; vectors U8, X5 to X9) -/

theorem test_decode_init : decode 0x100f0e0d0c0b0a09080706050403020100 = .ok (.init k0 k1) := by decide
theorem test_decode_update_three : decode 0x2300000000000000000000000000020100 = .ok (.update [0, 1, 2]) := by decide
theorem test_decode_update_ignored_lanes :
    decode 0x23deadbeefdeadbeefffffffffff020100 = .ok (.update [0, 1, 2]) := by decide
theorem test_decode_update_seven :
    decode 0x2700000000000000000006050403020100 = .ok (.update [0, 1, 2, 3, 4, 5, 6]) := by decide
theorem test_decode_update_full :
    decode 0x2800000000000000000a09080706050403 = .ok (.updateFull 0x0a09080706050403) := by decide
theorem test_decode_final : decode 0x3000000000000000000000000000000000 = .ok .final := by decide
theorem test_decode_op_zero_reserved : decode 0 = .error .opcode := by decide
theorem test_decode_op_four_reserved : decode 0x4000000000000000000000000000000000 = .error .opcode := by decide
theorem test_decode_init_count_reserved : decode 0x1100000000000000000000000000000000 = .error .initCount := by decide
theorem test_decode_update_nine_reserved : decode 0x2900000000000000000000000000000000 = .error .updateCount := by decide
theorem test_decode_final_count_reserved : decode 0x3100000000000000000000000000000000 = .error .finalCount := by decide
theorem test_encode_update : encode (.update [0x0b, 0x0c, 0x0d, 0x0e]) = 0x240000000000000000000000000e0d0c0b := by decide

/-! ## Primitives (spec/95_test_vectors.md section 3) -/

theorem test_rotl_thirteen : rotl 0x0123456789abcdef 13 = 0x68acf13579bde024 := by decide
theorem test_sipround_S9 :
    sipround ⟨0x0123456789abcdef, 0xfedcba9876543210, 0x0f1e2d3c4b5a6978, 0x8796a5b4c3d2e1f0⟩
      = ⟨0x33001123eeddccfd, 0x1d0b375d48a3fad5, 0x88eb2b8cff61c426, 0x177dca9a711bacff⟩ := by decide
theorem test_sipround_S6_wraps :
    sipround ⟨0xffffffffffffffff, 1, 0xffffffffffffffff, 1⟩
      = ⟨0x10000, 0x40002000, 0x200000000000, 0x2000010000⟩ := by decide
theorem test_compress_K4 : compress 2 vInit 0x0706050403020100 = vM0 := by decide
theorem test_compress_K5_one_round :
    compress 1 vInit 0x0706050403020100
      = ⟨0x63608f969061857f, 0x4ed232083d9aa8dc, 0xf2f74892d8141a2e, 0x9290f9810552f4a8⟩ := by decide
theorem test_fold_vector :
    fold ⟨0xf6bcd53893fecff1, 0x54b9964c7ea0d937, 0x1b38329c099bb55a, 0x1814bb89ad7be679⟩ = 0xa129ca6149be45e5 := by
  decide
theorem test_sipHash_nine_bytes :
    sipHash Config.sipHash24 k0 k1 [0, 1, 2, 3, 4, 5, 6, 7, 8] = 0x9e0082df0ba9e4b0 := by decide
theorem test_sipHash_one_three : sipHash ⟨1, 3⟩ k0 k1 [0] = 0xc9f49bf37d57ca93 := by decide
theorem test_digest_bytes :
    digestBytes 0x726fdb47dd0e0e31 = [0x31, 0x0e, 0x0e, 0xdd, 0x47, 0xdb, 0x6f, 0x72] := by decide
theorem test_listing_update : listing (.update [0x00, 0x01, 0x02]) = "UPDATE 00 01 02".toList := by decide
theorem test_listing_init :
    listing (.init k0 k1) = "INIT 0x0706050403020100, 0x0f0e0d0c0b0a0908".toList := by decide

/-! ## One step each (spec/95_test_vectors.md section 5) -/

/-- I5: a second INIT discards the computation. -/
theorem test_init_discards :
    after (exec (.init k0 k1) (active vM0 [8, 9, 0x0a] 11)) = some (active vInit [] 0) := by decide
/-- I6: different halves. -/
theorem test_init_halves :
    (after (exec (.init 0x1111111111111111 0x2222222222222222) State.reset)).map (fun s => s.engine.v)
      = some ⟨0x627e7c7461627464, 0x464d50434c464d4f, 0x7d6876747f746370, 0x564746405b564751⟩ := by decide
/-- U4: buffer only. -/
theorem test_update_buffers :
    after (exec (.update [0x0b, 0x0c, 0x0d, 0x0e]) (active vM0 [8, 9, 0x0a] 11))
      = some (active vM0 [8, 9, 0x0a, 0x0b, 0x0c, 0x0d, 0x0e] 15) := by decide
/-- U9: fill and spill, used 7. -/
theorem test_update_spills :
    after (exec (.update [7, 8]) (active vInit [0, 1, 2, 3, 4, 5, 6] 7)) = some (active vM0 [8] 9) := by decide
/-- U5: a full beat into an empty BUF. -/
theorem test_updateFull_direct :
    after (exec (.updateFull 0x0706050403020100) (active vInit [] 0)) = some (active vM0 [] 8) := by decide
/-- U3: a full beat with used 3. -/
theorem test_updateFull_spills :
    after (exec (.updateFull 0x0a09080706050403) (active vInit [0, 1, 2] 3)) = some (active vM0 [8, 9, 0x0a] 11) := by
  decide
/-- F4: the digest, and `ZERO` afterwards. -/
theorem test_final_answers :
    after (exec .final (active vM0 [8, 9, 0x0a, 0x0b, 0x0c, 0x0d, 0x0e] 15))
      = some { State.reset with responses := [0xa129ca6149be45e5] } := by decide
/-- X2: FINAL before any INIT. -/
theorem test_final_refused : refusal (exec .final State.reset) = some .noComputation := by decide
/-- A table word placed by `withFetchWord` is run by the very next step (I1). -/
theorem test_step_runs_the_table_word :
    after (step (State.reset.withFetchWord 136 0x100f0e0d0c0b0a09080706050403020100)) = some (active vInit [] 0) := by
  decide
/-- Reset overrides the command beside it. -/
theorem test_reset_overrides :
    after (step { active vM0 [8] 9 with port := [.reset (some 0x3000000000000000000000000000000000)] })
      = some State.reset := by decide

/-- SipHash-1-3: FINAL after one byte (spec/95_test_vectors.md section 6, RC 1, RF 3, L = 1). -/
theorem test_final_at_one_three :
    after (execAt ⟨1, 3⟩ .final (active vInit [0] 1)) = some { State.reset with responses := [0xc9f49bf37d57ca93] } := by
  decide
/-- SipHash-1-3: a full beat absorbed with one round (vector K5). -/
theorem test_update_at_one_round :
    (after (stepAt ⟨1, 3⟩ ((active vInit [] 0).withFetchWord 136 0x2800000000000000000706050403020100))).map
        (fun s => s.engine.v)
      = some ⟨0x63608f969061857f, 0x4ed232083d9aa8dc, 0xf2f74892d8141a2e, 0x9290f9810552f4a8⟩ := by decide

/-! ## Witnesses: the hypotheses of each statement can be met -/

theorem witness_DecodeEncodeRoundTrip : (Instr.update [0, 1, 2, 3, 4, 5, 6]).wellFormed = true := by decide

/-- DecodeReadsTheFields, one word for each clause: headers 10, 28, 30, and 29 for the last. -/
theorem witness_DecodeReadsTheFields :
    (∃ w : CmdWord, w.extractLsb' 132 4 = (1 : BitVec 4) ∧ BitVec.toNat (w.extractLsb' 128 4) = 0) ∧
    (∃ w : CmdWord, w.extractLsb' 132 4 = (2 : BitVec 4) ∧ BitVec.toNat (w.extractLsb' 128 4) = 8) ∧
    (∃ w : CmdWord, w.extractLsb' 132 4 = (3 : BitVec 4) ∧ BitVec.toNat (w.extractLsb' 128 4) = 0) ∧
    (∃ w : CmdWord, w.extractLsb' 132 4 = (2 : BitVec 4) ∧ BitVec.toNat (w.extractLsb' 128 4) = 9) :=
  ⟨⟨cmdWord 1 0 0 0, by decide⟩, ⟨cmdWord 2 8 0 0, by decide⟩, ⟨cmdWord 3 0 0 0, by decide⟩, ⟨cmdWord 2 9 0 0, by decide⟩⟩

theorem witness_ReservedWordsAreRefused :
    ∃ (s : State) (w : CmdWord), s.port = [.command w] ∧
      w.extractLsb' 128 8 ∉ [(0x10 : BitVec 8), 0x20, 0x21, 0x22, 0x23, 0x24, 0x25, 0x26, 0x27, 0x28, 0x30] :=
  ⟨State.reset.presentFirst (cmdWord 2 9 0 0), cmdWord 2 9 0 0, by decide⟩

theorem witness_IgnoredFieldsAreDropped_update :
    ∃ w w' : CmdWord, w ≠ w' ∧ CmdWord.header w = CmdWord.header w' ∧ CmdWord.op w = 2 ∧
      ∀ j, j < (CmdWord.count w).toNat → laneByte (CmdWord.lo w) j = laneByte (CmdWord.lo w') j :=
  ⟨cmdWord 2 3 0 0x020100, cmdWord 2 3 5 0xff020100, by decide⟩

theorem witness_IgnoredFieldsAreDropped_final :
    ∃ w w' : CmdWord, w ≠ w' ∧ CmdWord.header w = CmdWord.header w' ∧ CmdWord.op w = 3 :=
  ⟨cmdWord 3 0 0 0, cmdWord 3 0 5 7, by decide⟩

theorem witness_EncodeOfDecodedWord :
    (∃ (w : CmdWord) (i : Instr), decode w = .ok i ∧ CmdWord.op w = 1) ∧
    (∃ (w : CmdWord) (i : Instr), decode w = .ok i ∧ encode i ≠ w) :=
  ⟨⟨0x100f0e0d0c0b0a09080706050403020100, .init k0 k1, by decide⟩,
    ⟨0x23deadbeefdeadbeefffffffffff020100, .update [0, 1, 2], by decide⟩⟩

theorem witness_InitWordCarriesTheKey : (List.replicate 16 (0xff : Byte)).length = 16 := by decide

theorem witness_StepRunsTheDecodedCommand :
    (∃ (s : State) (w : CmdWord) (i : Instr), s.port = [.command w] ∧ decode w = .ok i) ∧
    (∃ (nbits w : Nat) (i : Instr), decodeTableWord nbits w = some i) :=
  ⟨⟨State.reset.presentFirst (cmdWord 3 0 0 0), cmdWord 3 0 0 0, .final, by decide⟩,
    ⟨136, 0x2000000000000000000000000000000000, .update [], by decide⟩⟩

theorem witness_IdleEngineStaysPut : (active vM0 [8] 9).port = [] := by decide

theorem witness_ResetZeroesEveryItem :
    ({ active vM0 [8] 9 with port := [.reset none] } : State).port = .reset none :: [] := by decide

theorem witness_InitNeverLeavesZero :
    (∃ s t : State, exec .final s = .next t) ∧ (∃ s t : State, exec (.init k0 k1) s = .next t) :=
  ⟨⟨active vM0 [8] 9, _, rfl⟩, ⟨State.reset, _, rfl⟩⟩

theorem witness_EmptyUpdateIsNoOp :
    (active vInit [] 0).engine.active = true ∧ State.reset.engine.active = false := by decide

/-- UpdateFourCases, one state and command for each case, at the boundary of its range: n = 0; used + n = 7; used + n = 8
from used 0 and from used 7; used + n = 9 and, at the top, used 7 with n = 8. -/
theorem witness_UpdateFourCases_none :
    beatOf (.update []) = some [] ∧ (active vInit [0, 1, 2, 3, 4, 5, 6] 7).engine.active = true ∧
      (active vInit [0, 1, 2, 3, 4, 5, 6] 7).Inv := by decide
theorem witness_UpdateFourCases_buffer :
    beatOf (.update [6]) = some [6] ∧ (active vInit [0, 1, 2, 3, 4, 5] 6).engine.active = true ∧
      (active vInit [0, 1, 2, 3, 4, 5] 6).Inv ∧ (active vInit [0, 1, 2, 3, 4, 5] 6).engine.used + 1 < 8 := by decide
theorem witness_UpdateFourCases_fill_direct :
    beatOf (.updateFull 0x0706050403020100) = some [0, 1, 2, 3, 4, 5, 6, 7] ∧ (active vInit [] 0).engine.active = true ∧
      (active vInit [] 0).Inv ∧ (active vInit [] 0).engine.used + 8 = 8 := by decide
theorem witness_UpdateFourCases_fill :
    beatOf (.update [7]) = some [7] ∧ (active vInit [0, 1, 2, 3, 4, 5, 6] 7).engine.active = true ∧
      (active vInit [0, 1, 2, 3, 4, 5, 6] 7).Inv ∧ (active vInit [0, 1, 2, 3, 4, 5, 6] 7).engine.used + 1 = 8 := by decide
theorem witness_UpdateFourCases_spill :
    beatOf (.update [7, 8]) = some [7, 8] ∧ (active vInit [0, 1, 2, 3, 4, 5, 6] 7).engine.active = true ∧
      (active vInit [0, 1, 2, 3, 4, 5, 6] 7).Inv ∧ 8 < (active vInit [0, 1, 2, 3, 4, 5, 6] 7).engine.used + 2 := by decide
theorem witness_UpdateFourCases_spill_full :
    beatOf (.updateFull 0x0e0d0c0b0a090807) = some [7, 8, 9, 0x0a, 0x0b, 0x0c, 0x0d, 0x0e] ∧
      (active vInit [0, 1, 2, 3, 4, 5, 6] 7).Inv ∧ 8 < (active vInit [0, 1, 2, 3, 4, 5, 6] 7).engine.used + 8 := by decide

/-- UpdateAbsorbsWholeBlocks, with a string of several blocks from used 7. -/
theorem witness_UpdateAbsorbsWholeBlocks :
    beatOf (.update (List.replicate 20 0xff)) = some (List.replicate 20 0xff) ∧
      (active vInit [0, 1, 2, 3, 4, 5, 6] 7).engine.active = true ∧ (active vInit [0, 1, 2, 3, 4, 5, 6] 7).Inv := by decide

theorem witness_UpdateFrame :
    ∃ t, exec (.update [6]) (active vInit [0, 1, 2, 3, 4, 5] 6) = .next t ∧
      (active vInit [0, 1, 2, 3, 4, 5] 6).engine.buf.wf ∧ (active vInit [0, 1, 2, 3, 4, 5] 6).engine.used + 1 < 8 :=
  ⟨_, rfl, by decide, by decide⟩

theorem witness_ChunkingLaw :
    (active vM0 [8, 9, 0x0a] 11).Inv ∧ (active vM0 [8, 9, 0x0a] 11).engine.active = true := by decide

/-- UpdateStarExpandsAnyString: nine bytes, cut into beats of 1, 0 and 8. -/
theorem witness_UpdateStarExpandsAnyString :
    [Instr.update [0], .update [], .updateFull 0x0807060504030201].map beatOf
        = [[0], [], [1, 2, 3, 4, 5, 6, 7, 8]].map some ∧
      [[0], [], [1, 2, 3, 4, 5, 6, 7, 8]].flatten = [(0 : Byte), 1, 2, 3, 4, 5, 6, 7, 8] ∧
      (∀ beat ∈ [[0], [], [(1 : Byte), 2, 3, 4, 5, 6, 7, 8]], beat.length ≤ 8) ∧
      (active vInit [] 0).Inv ∧ (active vInit [] 0).engine.active = true ∧ 1 < (9 + 7) / 8 := by decide

theorem witness_FinalAnswersAndWipes : (active vM0 [8, 9, 0x0a] 11).engine.active = true := by decide

theorem witness_LegalityTable :
    beatOf (.update [1]) = some [1] ∧ beatOf (.updateFull 0) = some (List.replicate 8 0) ∧
      (active vInit [] 0).engine.active = true ∧ State.reset.engine.active = false := by decide

theorem witness_NothingIsRaised :
    Legal (.init k0 k1) State.reset ∧ Legal (.update [1]) (active vInit [] 0) ∧
      Legal (.updateFull 0) (active vInit [] 0) ∧ Legal .final (active vInit [] 0) :=
  ⟨trivial, rfl, rfl, rfl⟩

/-- LifecycleTransitions: a word for each clause, and both phases. -/
theorem witness_LifecycleTransitions :
    decode (cmdWord 1 0 0 0) = .ok (.init 0 0) ∧ decode (cmdWord 2 0 0 0) = .ok (.update []) ∧
      beatOf (.update []) = some [] ∧ decode (cmdWord 2 8 0 0) = .ok (.updateFull 0) ∧
      decode (cmdWord 3 0 0 0) = .ok .final ∧ decode (cmdWord 3 1 0 0) = .error .finalCount ∧
      (State.reset.presentFirst (cmdWord 3 0 0 0)).port = [.command (cmdWord 3 0 0 0)] ∧
      ((active vM0 [] 8).presentFirst (cmdWord 3 0 0 0)).engine.active = true ∧
      ({ active vM0 [] 8 with port := [.reset none] } : State).port = [.reset none] := by decide

theorem witness_CleanRunsAreTheOrderedOnes :
    hostKeepsOrder false [.command (cmdWord 1 0 0 0), .command (cmdWord 3 0 0 0)] = true ∧
      hostKeepsOrder false [.command (cmdWord 3 0 0 0)] = false ∧
      (∃ t, runEvents [.command (cmdWord 1 0 0 0), .reset none] State.reset = .next t) :=
  ⟨by decide, by decide, ⟨_, rfl⟩⟩

theorem witness_ResponsesComeOnlyFromFinal :
    (∃ t, step ((active vM0 [] 8).presentFirst (cmdWord 3 0 0 0)) = .next t) ∧
      (∃ t, step (State.reset.presentFirst (cmdWord 1 0 0 0)) = .next t) ∧ (∃ t, step State.reset = .next t) :=
  ⟨⟨_, rfl⟩, ⟨_, rfl⟩, ⟨_, rfl⟩⟩

theorem witness_InvariantIsKept :
    ∃ t, ((active vInit [0, 1, 2] 3).presentFirst (cmdWord 2 8 0 0)).Inv ∧
      step ((active vInit [0, 1, 2] 3).presentFirst (cmdWord 2 8 0 0)) = .next t :=
  ⟨_, by decide, rfl⟩

theorem witness_RotationMovesEveryBit : (0 < 1 ∧ 1 < 64 ∧ 63 < 64) ∧ (0 < 63 ∧ 63 < 64 ∧ 0 < 64) := by decide

theorem witness_WordsAreLittleEndian : (List.replicate 8 (0xff : Byte)).length = 8 ∧ 7 < 8 := by decide

theorem witness_MemWriteReadsBack : 7 + 1 ≤ 8 ∧ 0 + 8 ≤ 8 ∧ (0 < 1 ∧ (6 < 7 ∨ 7 + 1 ≤ 6)) := by decide

theorem witness_MidStreamRecord :
    [Instr.update [0, 1, 2], .updateFull 0x0a09080706050403].map beatOf
        = [[0, 1, 2], [3, 4, 5, 6, 7, 8, 9, 0x0a]].map some ∧
      [[(0 : Byte), 1, 2], [3, 4, 5, 6, 7, 8, 9, 0x0a]].flatten.length < 2 ^ 64 := by decide

theorem witness_DigestIsSipHashOfTheMessage :
    ∃ m : State,
      [Instr.update [0, 1, 2], .updateFull 0x0a09080706050403].map beatOf
        = [[0, 1, 2], [3, 4, 5, 6, 7, 8, 9, 0x0a]].map some ∧
      (∀ i ∈ [Instr.update [0, 1, 2], .updateFull 0x0a09080706050403], i.wellFormed = true) ∧
      m.port = (Instr.init k0 k1 :: [Instr.update [0, 1, 2], .updateFull 0x0a09080706050403] ++ [Instr.final]).map
        (fun i => PortEvent.command (encode i)) ++ [] :=
  ⟨{ State.reset with
      port := (Instr.init k0 k1 :: [Instr.update [0, 1, 2], .updateFull 0x0a09080706050403] ++ [Instr.final]).map
        (fun i => PortEvent.command (encode i)) }, by decide, by decide, by simp⟩

/-- RefusalsIgnoreTheData: two runs with the same headers and different keys and data. -/
theorem witness_RefusalsIgnoreTheData :
    List.Forall₂ SameHeader
      [.command (cmdWord 1 0 0 0), .command (cmdWord 2 1 0 0), .reset none]
      [.command (cmdWord 1 0 5 7), .command (cmdWord 2 1 0 9), .reset none] ∧
    (∃ s', runEvents [.command (cmdWord 1 0 0 0), .command (cmdWord 2 1 0 0), .reset none] State.reset = .next s') ∧
    (∃ why, runEvents [.command (cmdWord 2 1 0 0)] State.reset = .refused why) :=
  ⟨.cons (show CmdWord.header _ = CmdWord.header _ by decide)
      (.cons (show CmdWord.header _ = CmdWord.header _ by decide) (.cons trivial .nil)), ⟨_, rfl⟩, ⟨_, rfl⟩⟩

/-- NothingShowsBeforeFinal: INIT under two keys. -/
theorem witness_NothingShowsBeforeFinal :
    List.Forall₂ SameHeader [.command (cmdWord 1 0 0 0)] [.command (cmdWord 1 0 5 7)] ∧
    (∀ ev ∈ [PortEvent.command (cmdWord 1 0 0 0)], NotFinal ev) ∧
    (∃ s', runEvents [.command (cmdWord 1 0 0 0)] State.reset = .next s') ∧
    (∃ t', runEvents [.command (cmdWord 1 0 5 7)] State.reset = .next t') :=
  ⟨.cons (show CmdWord.header _ = CmdWord.header _ by decide) .nil,
    fun ev h => by rw [List.mem_singleton.mp h]; show CmdWord.header _ ≠ 0x30; decide, ⟨_, rfl⟩, ⟨_, rfl⟩⟩

theorem witness_OperationShapeIgnoresTheData :
    ∃ (w w' : CmdWord) (i i' : Instr), i ≠ i' ∧ decode w = .ok i ∧ decode w' = .ok i' ∧
      CmdWord.header w = CmdWord.header w' :=
  ⟨cmdWord 2 1 0 0, cmdWord 2 1 0 9, .update [0], .update [9], by decide⟩

theorem witness_RoundsPerMessage :
    7 < 8 ∧ beatOf (.updateFull 0) = some (List.replicate 8 0) ∧
      [Instr.update [0], .updateFull 0].map beatOf = [[0], List.replicate 8 0].map some := by decide

/-- MicroOpsRefineExec holds of legal commands; here FINAL with bytes in BUF. -/
theorem witness_MicroOpsRefineExec : Legal .final (active vM0 [8, 9] 10) := rfl

/-- CommandsAtEveryRoundCount: a command word at the port; an active record with bytes in BUF; an idle one. -/
theorem witness_CommandsAtEveryRoundCount :
    ((active vM0 [8] 9).presentFirst (cmdWord 3 0 0 0)).port = [.command (cmdWord 3 0 0 0)] ∧
      decode (cmdWord 3 0 0 0) = .ok .final ∧ beatOf (.update [7, 8]) = some [7, 8] ∧
      (active vInit [0, 1, 2, 3, 4, 5, 6] 7).engine.active = true ∧ (active vInit [0, 1, 2, 3, 4, 5, 6] 7).Inv ∧
      State.reset.engine.active = false := by decide

theorem witness_InvariantAtEveryRoundCount :
    ∃ t, ((active vInit [0, 1, 2] 3).presentFirst (cmdWord 2 8 0 0)).Inv ∧
      stepAt ⟨1, 3⟩ ((active vInit [0, 1, 2] 3).presentFirst (cmdWord 2 8 0 0)) = .next t :=
  ⟨_, by decide, rfl⟩

/-- DigestAtEveryRoundCount: its hypotheses are those of DigestIsSipHashOfTheMessage; here with the empty message. -/
theorem witness_DigestAtEveryRoundCount :
    ∃ m : State, ([] : List Instr).map beatOf = ([] : List (List Byte)).map some ∧
      (∀ i ∈ ([] : List Instr), i.wellFormed = true) ∧
      m.port = (Instr.init k0 k1 :: [] ++ [Instr.final]).map (fun i => PortEvent.command (encode i)) ++ [.reset none] :=
  ⟨{ State.reset with
      port := (Instr.init k0 k1 :: [] ++ [Instr.final]).map (fun i => PortEvent.command (encode i)) ++ [.reset none] },
    rfl, by simp, rfl⟩

theorem witness_MicroOpsAtEveryRoundCount :
    Legal (.init k0 k1) State.reset ∧ Legal (.updateFull 0) (active vM0 [8, 9] 10) ∧ Legal .final (active vM0 [8, 9] 10) :=
  ⟨trivial, rfl, rfl⟩

end Sys2Proof.Tests
end

section
/-! The bytes of a number, lowest first, put together again, and `MemWrite` read back byte by byte
(spec/00_scope.md rule R12). -/

namespace Sys2Proof.Machine

/-- The lowest n bytes of a number are the number modulo 2^(8n). -/
theorem leNat_digits (x n : Nat) :
    leNat ((List.range n).map (fun i => BitVec.ofNat 8 (x / 2 ^ (8 * i)))) = x % 2 ^ (8 * n) := by
  induction n with
  | zero => simp [Nat.mod_one]
  | succ n ih =>
    rw [List.range_succ, List.map_append, leNat_append, ih, Nat.mul_succ, Nat.pow_add, Nat.mod_mul]
    simp

/-- The byte lanes of a value of 8n bits, as a little-endian number, are the value. -/
theorem leNat_byteLanes {n : Nat} (v : BitVec (8 * n)) :
    leNat ((List.range n).map (fun i => v.extractLsb' (8 * i) 8)) = v.toNat := by
  simp only [BitVec.extractLsb', Nat.shiftRight_eq_div_pow]
  rw [leNat_digits, Nat.mod_eq_of_lt v.isLt]

/-- A read after `MemWrite`: a lane of the value inside the n bytes written, what was there outside them. -/
theorem Memory.read_memWrite (m : Memory) (a n : Nat) (v : BitVec (8 * n)) (b : Nat) :
    (m.memWrite a n v).read b = if a ≤ b ∧ b < a + n then v.extractLsb' (8 * (b - a)) 8 else m.read b := by
  rw [Memory.memWrite, Memory.read_writeBytes, List.length_map, List.length_range]
  split <;> rename_i h
  · simp [List.getD_eq_getElem?_getD, show b - a < n by omega]
  · rfl

theorem Memory.read_memWrite_inside (m : Memory) (a : Nat) {n i : Nat} (v : BitVec (8 * n)) (h : i < n) :
    (m.memWrite a n v).read (a + i) = v.extractLsb' (8 * i) 8 := by
  rw [Memory.read_memWrite, if_pos (by omega), Nat.add_sub_cancel_left]

theorem Memory.read_memWrite_outside (m : Memory) {a n : Nat} (v : BitVec (8 * n)) {b : Nat}
    (h : b < a ∨ a + n ≤ b) : (m.memWrite a n v).read b = m.read b := by
  rw [Memory.read_memWrite, if_neg (by omega)]

/-- `MemRead` gives back what `MemWrite` wrote. -/
theorem Memory.memRead_memWrite (m : Memory) (a n : Nat) (v : BitVec (8 * n)) : (m.memWrite a n v).memRead a n = v := by
  have hbytes : (m.memWrite a n v).readBytes a n = (List.range n).map (fun i => v.extractLsb' (8 * i) 8) :=
    List.map_congr_left (fun i hi => Memory.read_memWrite_inside m a v (List.mem_range.mp hi))
  rw [Memory.memRead, hbytes, leNat_byteLanes, BitVec.ofNat_toNat, BitVec.setWidth_eq]

end Sys2Proof.Machine
end

section
/-! The decoder undoes the encoder on well-formed commands (spec/30_encoding.md section 5). -/

namespace Sys2Proof

open Sys2Proof.Machine

/-- Eight bytes made a word and taken apart again. -/
theorem bytesLE_le64 {bs : List Byte} (h : bs.length = 8) : bytesLE (le64 bs) = bs := by
  rw [bytesLE, ← h, lanes_le64 (by omega)]

theorem decode_encode {i : Instr} (h : i.wellFormed = true) : decode (encode i) = .ok i := by
  cases i with
  | init k0 k1 => simp [encode, decode_cmdWord]
  | update data =>
    have hlen : data.length ≤ 7 := by simpa [Instr.wellFormed] using h
    have hn : (BitVec.ofNat 4 data.length).toNat = data.length := by
      rw [BitVec.toNat_ofNat]; omega
    rw [encode, decode_cmdWord, hn, if_neg (by decide), if_pos rfl, if_pos hlen, lanes_le64 (by omega)]
  | updateFull block => simp [encode, decode_cmdWord]
  | final => simp [encode, decode_cmdWord]

/-- A table word that this decoder reads is the command word `withFetchWord` places. -/
theorem decode_tableWord {nbits w : Nat} {i : Instr} (h : decodeTableWord nbits w = some i) :
    decode (tableWord nbits w) = .ok i := by
  unfold decodeTableWord at h
  split at h <;> simp_all

end Sys2Proof
end

section
/-! UPDATE after UPDATE is one UPDATE, so a record in mid-stream is one UPDATE of the whole string so far
(spec/40_init_update_final.md rule R58, spec/42_oneshot.md rule R79). -/

namespace Sys2Proof.Machine

@[simp] theorem updateEngine_nil (c : Config) (e : Engine) : updateEngine c [] e = e := rfl

/-- The chunking law on the record, at every round count. -/
theorem updateEngine_updateEngine (c : Config) (a b : List Byte) {e : Engine} (h : e.Inv) (ha : e.active = true) :
    updateEngine c b (updateEngine c a e) = updateEngine c (a ++ b) e := by
  have hblocks : (e.used + (a ++ b).length) / 8
      = (e.used + a.length) / 8 + ((e.used + a.length) % 8 + b.length) / 8 := by
    rw [List.length_append]; omega
  have hwhole : 8 * ((e.used + a.length) / 8) ≤ (e.validBytes ++ a).length := by
    rw [List.length_append, Engine.validBytes_length]; omega
  rw [updateEngine_closed c b (updateEngine_inv c a h ha), updateEngine_used c a h, updateEngine_validBytes c a h,
    updateEngine_closed c a h, updateEngine_closed c (a ++ b) h, hblocks, ← List.append_assoc, absorbBlocks_add,
    absorbBlocks_append _ _ (e.validBytes ++ a) b _ hwhole, Nat.mul_add, ← List.drop_drop,
    List.drop_append_of_le_length hwhole]
  simp [addBytes, BitVec.add_assoc, BitVec.ofNat_add]

/-- The loop of rule R76 over whole blocks is what UPDATE absorbs. -/
theorem absorbedWords_eq_absorbBlocks (c : Config) (k0 k1 : Word) {s : List Byte} {n : Nat} (h : n ≤ s.length / 8) :
    absorbedWords c k0 k1 s n = absorbBlocks c.rc n s (keyedWords k0 k1) := by
  have hmap : (List.range n).map (hashBlock s) = (List.range n).map (fun j => le64 ((s.drop (8 * j)).take 8)) :=
    List.map_congr_left (fun j hj => if_pos (Nat.lt_of_lt_of_le (List.mem_range.mp hj) h))
  rw [absorbBlocks_eq_foldl, ← hmap, List.foldl_map, absorbedWords]

theorem absorbedWords_succ (c : Config) (k0 k1 : Word) (s : List Byte) (n : Nat) :
    absorbedWords c k0 k1 s (n + 1) = compress c.rc (absorbedWords c k0 k1 s n) (hashBlock s n) := by
  simp [absorbedWords, List.range_succ]

/-- INIT and one UPDATE of s leave the mid-stream record of s. -/
theorem updateEngine_initEngine (c : Config) (k0 k1 : Word) (s : List Byte) :
    updateEngine c s (initEngine k0 k1) = streamEngine c k0 k1 s := by
  rw [updateEngine_closed c s (initEngine_inv k0 k1), streamEngine, absorbedWords_eq_absorbBlocks _ _ _ le_rfl,
    initEngine_used, initEngine_validBytes, List.nil_append, Nat.zero_add]
  simp [initEngine, addBytes]

theorem streamEngine_used (c : Config) (k0 k1 : Word) (s : List Byte) :
    (streamEngine c k0 k1 s).used = s.length % 8 := by
  rw [← updateEngine_initEngine, updateEngine_used c s (initEngine_inv k0 k1), initEngine_used, Nat.zero_add]

theorem streamEngine_validBytes (c : Config) (k0 k1 : Word) (s : List Byte) :
    (streamEngine c k0 k1 s).validBytes = s.drop (8 * (s.length / 8)) := by
  rw [← updateEngine_initEngine, updateEngine_validBytes c s (initEngine_inv k0 k1), initEngine_used, Nat.zero_add,
    initEngine_validBytes, List.nil_append]

end Sys2Proof.Machine
end

section
/-! The digest of a mid-stream record is SipHash of the string so far (spec/42_oneshot.md rule R76), and at RC = RF = 0
it is one constant (spec/95_test_vectors.md section 6). -/

namespace Sys2Proof.Machine

/-- The digest of rule R76 is FOLD of its last words. -/
theorem sipHash_eq_fold (c : Config) (k0 k1 : Word) (s : List Byte) :
    sipHash c k0 k1 s = fold (siprounds c.rf (markFinal (absorbedWords c k0 k1 s (s.length / 8 + 1)))) := by
  simp only [sipHash, fold, BitVec.xor_assoc]

/-- The block FINAL pads in mid-stream is the last block of the message. -/
theorem finalBlock_streamEngine (c : Config) (k0 k1 : Word) (s : List Byte) :
    finalBlock (streamEngine c k0 k1 s) = hashBlock s (s.length / 8) := by
  have hlow : lowByte (BitVec.ofNat 64 s.length) = BitVec.ofNat 8 s.length := by
    apply BitVec.eq_of_toNat_eq
    simp only [lowByte, BitVec.extractLsb'_toNat, BitVec.toNat_ofNat, Nat.shiftRight_zero]
    omega
  rw [finalBlock_eq, streamEngine_validBytes, streamEngine_used, hashBlock, if_neg (Nat.lt_irrefl _), ← hlow]
  rfl

theorem finalDigest_streamEngine (c : Config) (k0 k1 : Word) (s : List Byte) :
    finalDigest c (streamEngine c k0 k1 s) = sipHash c k0 k1 s := by
  rw [sipHash_eq_fold, absorbedWords_succ, finalDigest, finalWords, finalBlock_streamEngine]
  rfl

/-- With no rounds a block meets itself in the fold and cancels. -/
theorem fold_compress_zero (v : StateWords) (m : Word) : fold (compress 0 v m) = fold v := by
  have hpair : (v.v0 ^^^ m) ^^^ v.v1 ^^^ (v.v2 ^^^ (v.v3 ^^^ m))
      = (v.v0 ^^^ v.v1) ^^^ (v.v2 ^^^ v.v3) ^^^ (m ^^^ m) := by
    ac_rfl
  rwa [BitVec.xor_self, BitVec.xor_zero] at hpair

theorem fold_markFinal (v : StateWords) : fold (markFinal v) = fold v ^^^ 0xff := by
  simp only [fold, markFinal]
  ac_rfl

/-- Both key halves meet themselves in the fold of the initial words and cancel. -/
theorem fold_keyedWords (k0 k1 : Word) : fold (keyedWords k0 k1) = fold (keyedWords 0 0) := by
  have hpairs (a b c d : Word) : (a ^^^ k0) ^^^ (b ^^^ k1) ^^^ ((c ^^^ k0) ^^^ (d ^^^ k1))
      = (a ^^^ b) ^^^ (c ^^^ d) ^^^ (k0 ^^^ k0) ^^^ (k1 ^^^ k1) := by ac_rfl
  simp only [fold, keyedWords]
  rw [hpairs, BitVec.xor_self, BitVec.xor_self]
  rfl

theorem fold_absorbedWords_zero (rf : Nat) (k0 k1 : Word) (s : List Byte) (n : Nat) :
    fold (absorbedWords ⟨0, rf⟩ k0 k1 s n) = fold (keyedWords k0 k1) := by
  induction n with
  | zero => rfl
  | succ n ih => rw [absorbedWords_succ, fold_compress_zero, ih]

/-- At RC = RF = 0 every message under every key has one digest. -/
theorem sipHash_zero_rounds (k0 k1 : Word) (s : List Byte) : sipHash ⟨0, 0⟩ k0 k1 s = 0x0f1c1c0309061df5 := by
  rw [sipHash_eq_fold, siprounds_zero, fold_markFinal, fold_absorbedWords_zero, fold_keyedWords]
  rfl

end Sys2Proof.Machine
end

section
/-! The beats of `UPDATE*` and ONESHOT carry the message (spec/30_encoding.md rules R51, R52). -/

namespace Sys2Proof.Machine

/-- A beat's UPDATE command carries that beat. -/
theorem beatOf_beatInstr (beat : List Byte) : beatOf (beatInstr beat) = some beat := by
  unfold beatInstr
  split <;> rename_i h
  · rw [beatOf, bytesLE_le64 h]
  · rfl

/-- The first n blocks of a string, put together again. -/
theorem flatten_blocks (s : List Byte) (n : Nat) :
    ((List.range n).map (fun j => (s.drop (8 * j)).take 8)).flatten = s.take (8 * n) := by
  induction n with
  | zero => rfl
  | succ n ih => simp [List.range_succ, ih, Nat.mul_succ, List.take_add]

/-- The pieces into which `UPDATE* s` cuts s. -/
def beatsOf (s : List Byte) : List (List Byte) :=
  (List.range ((s.length + 7) / 8)).map (fun j => (s.drop (8 * j)).take 8)

theorem beatsOf_flatten (s : List Byte) : (beatsOf s).flatten = s := by
  rw [beatsOf, flatten_blocks, List.take_of_length_le (by omega)]

theorem updateStar_beats (s : List Byte) : (updateStar s).map beatOf = (beatsOf s).map some := by
  simp [updateStar, beatsOf, Function.comp_def, beatOf_beatInstr]

end Sys2Proof.Machine
end

section
/-! What a command and a run of commands answer, at every round count (spec/40_init_update_final.md, spec/42_oneshot.md
rules R75, R76). -/

namespace Sys2Proof.Machine

/-- `ZERO` meets the invariant. -/
theorem Engine.zero_inv : Engine.zero.Inv := by decide

/-- The digest emitted and the record wiped, as one state. -/
theorem State.wipe_emit (s : State) (d : Word) :
    (s.emit d).wipe = { engine := Engine.zero, port := s.port, responses := s.responses ++ [d] } := rfl

theorem execAt_beat_active (c : Config) {i : Instr} {data : List Byte} (h : beatOf i = some data) {s : State}
    (ha : s.engine.active = true) : execAt c i s = .next (s.setEngine (updateEngine c data s.engine)) := by
  rw [execAt_beat c h, whenActive_next ha]

theorem execAt_beat_idle (c : Config) {i : Instr} {data : List Byte} (h : beatOf i = some data) {s : State}
    (ha : s.engine.active = false) : execAt c i s = .refused .noComputation := by
  rw [execAt_beat c h, whenActive_refused ha]

theorem execAt_final_active (c : Config) {s : State} (ha : s.engine.active = true) :
    execAt c .final s
      = .next { engine := Engine.zero, port := s.port, responses := s.responses ++ [finalDigest c s.engine] } := by
  rw [execAt_final, whenActive_next ha, State.wipe_emit]

theorem execAt_final_idle (c : Config) {s : State} (ha : s.engine.active = false) :
    execAt c .final s = .refused .noComputation := by
  rw [execAt_final, whenActive_refused ha]

/-- No command touches what the host still presents. -/
theorem execAt_port {c : Config} {i : Instr} {s t : State} (h : execAt c i s = .next t) : t.port = s.port := by
  rcases execAt_cases h with ⟨k0, k1, -, rfl⟩ | ⟨data, -, -, rfl⟩ | ⟨-, -, rfl⟩
  · rw [State.setEngine_port]
  · rw [State.setEngine_port]
  · rw [State.wipe_port, State.emit_port]

/-- Every command keeps the invariant, at every round count. -/
theorem execAt_inv {c : Config} {i : Instr} {s t : State} (hs : s.Inv) (h : execAt c i s = .next t) : t.Inv := by
  rcases execAt_cases h with ⟨k0, k1, -, rfl⟩ | ⟨data, -, ha, rfl⟩ | ⟨-, -, rfl⟩
  · exact initEngine_inv k0 k1
  · exact updateEngine_inv c data hs ha
  · exact Engine.zero_inv

/-- UPDATEs in order are one UPDATE of the bytes they carry. -/
theorem execAllAt_beats (c : Config) {is : List Instr} {beats : List (List Byte)}
    (h : is.map beatOf = beats.map some) {s : State} (hs : s.Inv) (ha : s.engine.active = true) :
    execAllAt c is s = .next (s.setEngine (updateEngine c beats.flatten s.engine)) := by
  induction is generalizing beats s with
  | nil =>
    obtain rfl : beats = [] := by simpa using h.symm
    rfl
  | cons i is ih =>
    obtain - | ⟨beat, beats⟩ := beats
    · simp at h
    · obtain ⟨hbeat, hrest⟩ : beatOf i = some beat ∧ is.map beatOf = beats.map some := by simpa using h
      have hnext := ih hrest (s := s.setEngine (updateEngine c beat s.engine)) (updateEngine_inv c beat hs ha)
        (by simpa using ha)
      rw [execAllAt_cons, execAt_beat_active c hbeat ha, andThen_next, hnext, State.setEngine_engine,
        updateEngine_updateEngine c _ _ hs ha, List.flatten_cons]
      rfl

/-- INIT and UPDATEs leave the mid-stream record of the bytes they carry (spec/42_oneshot.md rule R79). -/
theorem execAllAt_stream (c : Config) (k0 k1 : Word) {is : List Instr} {beats : List (List Byte)}
    (h : is.map beatOf = beats.map some) (m : State) :
    execAllAt c (.init k0 k1 :: is) m = .next (m.setEngine (streamEngine c k0 k1 beats.flatten)) := by
  rw [execAllAt_cons, execAt_init, andThen_next,
    execAllAt_beats c h (s := m.setEngine (initEngine k0 k1)) (initEngine_inv k0 k1) rfl, State.setEngine_engine,
    updateEngine_initEngine]
  rfl

/-- INIT, UPDATEs and FINAL answer SipHash of the bytes they carry and leave `ZERO`. -/
theorem execAllAt_message (c : Config) (k0 k1 : Word) {is : List Instr} {beats : List (List Byte)}
    (h : is.map beatOf = beats.map some) (m : State) :
    execAllAt c (.init k0 k1 :: is ++ [.final]) m = .next
      { engine := Engine.zero, port := m.port, responses := m.responses ++ [sipHash c k0 k1 beats.flatten] } := by
  have hstream := execAllAt_stream c k0 k1 h m
  rw [execAllAt] at hstream ⊢
  rw [foldAll_append, hstream, andThen_next, foldAll_cons, execAt_final_active c rfl, State.setEngine_engine,
    finalDigest_streamEngine]
  rfl

theorem execAllAt_oneshot (c : Config) (k0 k1 : Word) (s : List Byte) (m : State) :
    execAllAt c (oneshot k0 k1 s) m = .next
      { engine := Engine.zero, port := m.port, responses := m.responses ++ [sipHash c k0 k1 s] } := by
  rw [oneshot, execAllAt_message c k0 k1 (updateStar_beats s), beatsOf_flatten]

end Sys2Proof.Machine
end

section
/-! Steps on the words the host presents (spec/20_memory.md rule R38), at every round count. -/

namespace Sys2Proof.Machine

/-- A step on a command word runs the decoded command on what is presented after it. -/
theorem stepAt_command (c : Config) {s : State} {w : CmdWord} {rest : List PortEvent} {i : Instr}
    (hp : s.port = .command w :: rest) (hd : decode w = .ok i) : stepAt c s = execAt c i { s with port := rest } := by
  rw [stepAt, stepBy_cons hp, acceptEventBy, acceptWordBy_ok hd]

/-- This hardware's step is that of the engine at RC = 2, RF = 4. -/
theorem step_eq_stepAt : step = stepAt Config.sipHash24 := by
  funext s
  rw [step, stepAt, exec_eq_execAt]

/-- Every step keeps the invariant, at every round count. -/
theorem stepAt_inv {c : Config} {s t : State} (hs : s.Inv) (h : stepAt c s = .next t) : t.Inv := by
  rcases stepBy_cases h with ⟨-, rfl⟩ | ⟨beside, rest, -, rfl⟩ | ⟨w, rest, i, -, -, hexec⟩
  · exact hs
  · exact Engine.zero_inv
  · exact execAt_inv (s := { s with port := rest }) hs hexec

/-- What commands in order answer, the machine's steps on their words answer. -/
theorem coreAt_run_commands {c : Config} {is : List Instr} (hwf : ∀ i ∈ is, i.wellFormed = true)
    {rest : List PortEvent} {s t : State} (hp : s.port = is.map (fun i => PortEvent.command (encode i)) ++ rest)
    (h : execAllAt c is { s with port := rest } = .next t) : (coreAt c).run is.length s = .next t := by
  induction is generalizing s with
  | nil =>
    obtain ⟨e, p, r⟩ := s
    obtain rfl : p = rest := hp
    exact h
  | cons i is ih =>
    rw [execAllAt_cons] at h
    cases hi : execAt c i { s with port := rest } with
    | next u =>
      have hu : u.port = rest := execAt_port hi
      have hstep : stepAt c s = .next { u with port := is.map (fun i => PortEvent.command (encode i)) ++ rest } :=
        (stepAt_command c hp (decode_encode (hwf i (by simp)))).trans (execAt_next_port hi _)
      rw [hi, andThen_next] at h
      subst hu
      refine (run_succ_next (M := coreAt c) is.length hstep).trans ?_
      exact ih (fun j hj => hwf j (by simp [hj])) rfl h
    | fault why => cases why
    | refused why => simp [hi] at h

end Sys2Proof.Machine
end

section
/-! The commands at every round count, with the fields written out (spec/40_init_update_final.md rules R55, R59). -/

namespace Sys2Proof.Machine

/-- The valid bytes, read one by one. -/
theorem Engine.validBytes_eq_map (e : Engine) :
    e.validBytes = (List.range (e.bytes.toNat % 8)).map (fun j => e.buf.read j) := by
  simp [Engine.validBytes, Engine.used, Memory.readBytes]

/-- Every byte of BUF after UPDATE: the tail of the valid bytes and the data, zeros above. -/
theorem updateEngine_read (c : Config) (data : List Byte) {e : Engine} (h : e.Inv) (a : Nat) :
    (updateEngine c data e).buf.read a =
      if a < (e.used + data.length) % 8 then
        (e.validBytes ++ data).getD (8 * ((e.used + data.length) / 8) + a) 0
      else 0 := by
  have htail : ((e.validBytes ++ data).drop (8 * ((e.used + data.length) / 8))).length
      = (e.used + data.length) % 8 := by simp; omega
  rw [updateEngine_closed c data h, Memory.read_writeBytes, htail, Memory.read_cleared]
  simp [List.getD_eq_getElem?_getD]

/-- The state words after UPDATE: the whole blocks absorbed in order. -/
theorem updateEngine_v (c : Config) (data : List Byte) {e : Engine} (h : e.Inv) :
    (updateEngine c data e).v =
      ((List.range ((e.used + data.length) / 8)).map
        (fun j => le64 (((e.validBytes ++ data).drop (8 * j)).take 8))).foldl (compress c.rc) e.v := by
  rw [updateEngine_closed c data h, absorbBlocks_eq_foldl]

/-- BYTES after UPDATE: the number of data bytes is added. -/
theorem updateEngine_bytes (c : Config) (data : List Byte) {e : Engine} (h : e.Inv) :
    (updateEngine c data e).bytes = e.bytes + BitVec.ofNat 64 data.length := by
  rw [updateEngine_closed c data h, addBytes]

/-- The digest, with COMPRESS of the padded block, the mark and the last rounds written out. -/
theorem finalDigest_eq (c : Config) (e : Engine) :
    finalDigest c e = fold (siprounds c.rf (markFinal
      (compress c.rc e.v (le64 (e.validBytes ++ List.replicate (7 - e.used) 0 ++ [lowByte e.bytes]))))) := by
  rw [finalDigest, finalWords, finalBlock_eq]

end Sys2Proof.Machine
end

section
/-! The primitive operations of UPDATE and of FINAL, run in order (spec/41_round_primitives.md rule R72). -/

namespace Sys2Proof.Machine

/-- The operations that absorb n whole blocks straight from the input. -/
def blockOps (rc n : Nat) (data : List Byte) : List MicroOp :=
  (List.range n).flatMap (fun j => .blockFromInput (le64 ((data.drop (8 * j)).take 8)) :: compressOps rc)

theorem inputOps_eq (c : Config) (data : List Byte) :
    inputOps c data = blockOps c.rc (data.length / 8) data ++ writeOps 0 (data.drop (8 * (data.length / 8))) := rfl

theorem blockOps_succ (rc n : Nat) (data : List Byte) :
    blockOps rc (n + 1) data
      = blockOps rc n data ++ .blockFromInput (le64 ((data.drop (8 * n)).take 8)) :: compressOps rc := by
  simp [blockOps, List.range_succ]

/-- Blocks from the input change the state words only, besides the temporary block word. -/
theorem runMicroOps_blockOps (rc n : Nat) (data : List Byte) (p : Datapath) :
    ∃ block, runMicroOps (blockOps rc n data) p
      = { p with engine := { p.engine with v := absorbBlocks rc n data p.engine.v }, block := block } := by
  induction n with
  | zero => exact ⟨p.block, rfl⟩
  | succ n ih =>
    obtain ⟨block, hrun⟩ := ih
    refine ⟨le64 ((data.drop (8 * n)).take 8), ?_⟩
    rw [blockOps_succ, runMicroOps_append, hrun, runMicroOps_cons, runMicroOps_compress, absorbBlocks_add,
      absorbBlocks_succ, absorbBlocks_zero]
    rfl

/-- The end of UPDATE, from the input. -/
theorem runMicroOps_inputOps (c : Config) (data : List Byte) (p : Datapath) :
    ∃ block, runMicroOps (inputOps c data) p
      = { p with engine := absorbInput c data p.engine, block := block } := by
  obtain ⟨block, hrun⟩ := runMicroOps_blockOps c.rc (data.length / 8) data p
  refine ⟨block, ?_⟩
  rw [inputOps_eq, runMicroOps_append, hrun, runMicroOps_write]
  rfl

/-- Filling BUF, absorbing it and clearing it is the top-up of rule R55, whatever operations follow. -/
theorem runMicroOps_topUp (c : Config) (head : List Byte) (ops : List MicroOp) (p : Datapath) :
    runMicroOps (writeOps p.engine.used head ++ .blockFromBuf :: compressOps c.rc ++ .zeroBuf :: ops) p
      = runMicroOps ops { p with
          engine := topUp c head p.engine
          block := (p.engine.buf.writeBytes p.engine.used head).blockWord } := by
  rw [runMicroOps_append, runMicroOps_append, runMicroOps_write, runMicroOps_cons, runMicroOps_cons,
    runMicroOps_compress]
  rfl

/-- The operations of UPDATE are UPDATE, in every record. -/
theorem runMicroOps_updateOps (c : Config) (data : List Byte) (p : Datapath) :
    ∃ block, runMicroOps (updateOps c p.engine.used data) p
      = { p with engine := updateEngine c data p.engine, block := block } := by
  unfold updateOps updateEngine
  by_cases hempty : data.length = 0
  · exact ⟨p.block, by rw [if_pos hempty, if_pos hempty, runMicroOps_nil]⟩
  rw [if_neg hempty, if_neg hempty]
  by_cases hused : p.engine.used > 0
  · rw [if_pos hused, if_pos hused]
    by_cases hshort : data.length < 8 - p.engine.used
    · rw [if_pos hshort, if_pos hshort, runMicroOps_append, runMicroOps_write]
      exact ⟨p.block, rfl⟩
    · rw [if_neg hshort, if_neg hshort]
      obtain ⟨block, hrun⟩ := runMicroOps_inputOps c (data.drop (8 - p.engine.used)) _
      refine ⟨block, ?_⟩
      rw [runMicroOps_append, runMicroOps_topUp, hrun]
      rfl
  · rw [if_neg hused, if_neg hused]
    obtain ⟨block, hrun⟩ := runMicroOps_inputOps c data p
    refine ⟨block, ?_⟩
    rw [runMicroOps_append, hrun]
    rfl

/-- The operations of FINAL answer the digest and wipe the record, in every record. -/
theorem runMicroOps_finalOps (c : Config) (p : Datapath) :
    runMicroOps (finalOps c p.engine.used) p
      = { engine := Engine.zero, block := finalBlock p.engine, out := p.out ++ [finalDigest c p.engine] } := by
  rw [finalOps, runMicroOps_append, runMicroOps_append, runMicroOps_append, runMicroOps_append, runMicroOps_write,
    runMicroOps_cons, runMicroOps_cons, runMicroOps_compress, runMicroOps_cons, runMicroOps_rounds]
  rfl

/-- Both UPDATE forms perform the operations of the one UPDATE of their data bytes. -/
theorem microOps_beat (c : Config) (used : Nat) {i : Instr} {data : List Byte} (h : beatOf i = some data) :
    microOps c used i = updateOps c used data := by
  cases i <;> simp only [beatOf, Option.some.injEq, reduceCtorEq] at h <;> subst h <;> rfl

theorem active_of_legal_beat {i : Instr} {data : List Byte} {s : State} (h : beatOf i = some data) (hl : Legal i s) :
    s.engine.active = true := by
  cases i with
  | init k0 k1 => simp [beatOf] at h
  | update bytes => exact hl
  | updateFull word => exact hl
  | final => simp [beatOf] at h

/-- Every legal command is its list of primitive operations, at every round count. -/
theorem execAt_microOps (c : Config) {i : Instr} {s : State} (block : Word) (h : Legal i s) :
    execAt c i s = .next
      { engine := (runMicroOps (microOps c s.engine.used i) ⟨s.engine, block, []⟩).engine
        port := s.port
        responses := s.responses ++ (runMicroOps (microOps c s.engine.used i) ⟨s.engine, block, []⟩).out } := by
  rcases instr_cases i with ⟨k0, k1, rfl⟩ | ⟨data, hdata⟩ | rfl
  · have hrun : runMicroOps (microOps c s.engine.used (.init k0 k1)) ⟨s.engine, block, []⟩
        = ⟨initEngine k0 k1, block, []⟩ := rfl
    rw [hrun, execAt_init, List.append_nil]
    rfl
  · obtain ⟨last, hrun⟩ := runMicroOps_updateOps c data ⟨s.engine, block, []⟩
    rw [microOps_beat c _ hdata, hrun, execAt_beat_active c hdata (active_of_legal_beat hdata h), List.append_nil]
    rfl
  · have hrun := runMicroOps_finalOps c ⟨s.engine, block, []⟩
    rw [microOps, hrun, execAt_final_active c h]
    rfl

end Sys2Proof.Machine
end

section
/-! The statements about the scope: the engine at every round count, `MemRead` and `MemWrite`, the step. -/

namespace Sys2Proof.Proofs

open Sys2Proof.Machine

/-- Settles O53: the steps on the words are the commands in order, UPDATEs leave the mid-stream record of what they carry,
and its digest is `sipHash`. -/
theorem digestAtEveryRoundCount : Obligations.DigestAtEveryRoundCount := by
  unfold Obligations.DigestAtEveryRoundCount
  refine ⟨fun c k0 k1 is beats rest m hbeats hwf hport => ?_, execAllAt_oneshot, fun k0 k1 s m => ?_⟩
  · have hall : ∀ i ∈ Instr.init k0 k1 :: is ++ [Instr.final], i.wellFormed = true := fun i hi => by
      simp only [List.cons_append, List.mem_cons, List.mem_append, List.not_mem_nil, or_false] at hi
      obtain rfl | hi | rfl := hi
      · rfl
      · exact hwf i hi
      · rfl
    have hrun := coreAt_run_commands hall hport (execAllAt_message c k0 k1 hbeats { m with port := rest })
    rwa [List.length_append] at hrun
  · rw [execAllAt_oneshot, sipHash_zero_rounds]

/-- Settles O39, lane by lane. -/
theorem memWriteReadsBack : Obligations.MemWriteReadsBack := by
  unfold Obligations.MemWriteReadsBack
  exact fun m a n v _ => ⟨m.memRead_memWrite a n v, fun i hi => m.read_memWrite_inside a v hi,
    fun b hb => m.read_memWrite_outside v hb⟩

/-- Settles O51, from the closed form of UPDATE and the padded block of FINAL. -/
theorem commandsAtEveryRoundCount : Obligations.CommandsAtEveryRoundCount := by
  unfold Obligations.CommandsAtEveryRoundCount
  refine fun c => ⟨fun s w rest i hport hdecode => stepAt_command c hport hdecode, fun k0 k1 s => rfl, ?update,
    ?final, fun s hidle => ⟨execAt_final_idle c hidle, fun i data hdata => execAt_beat_idle c hdata hidle⟩⟩
  case update =>
    intro i data s hdata hactive hinv e used all blocks
    have hall : all = e.validBytes ++ data := by rw [Engine.validBytes_eq_map]
    rw [hall]
    exact ⟨_, execAt_beat_active c hdata hactive, updateEngine_v c data hinv, updateEngine_read c data hinv,
      updateEngine_bytes c data hinv, (updateEngine_active c data s.engine).trans hactive, rfl, rfl⟩
  case final =>
    intro s hactive
    rw [execAt_final_active c hactive, finalDigest_eq, Engine.validBytes_eq_map]
    rfl

/-- Settles O52, by the cases of a step. -/
theorem invariantAtEveryRoundCount : Obligations.InvariantAtEveryRoundCount := by
  unfold Obligations.InvariantAtEveryRoundCount
  exact fun c s t hs hstep => stepAt_inv hs hstep

/-- Settles O54, by the three kinds of command. -/
theorem microOpsAtEveryRoundCount : Obligations.MicroOpsAtEveryRoundCount := by
  unfold Obligations.MicroOpsAtEveryRoundCount
  exact fun c i s block hlegal => execAt_microOps c block hlegal

/-- Settles O8: `withFetchWord` puts the word where the step takes it. -/
theorem stepRunsTheDecodedCommand : Obligations.StepRunsTheDecodedCommand := by
  unfold Obligations.StepRunsTheDecodedCommand
  have hstep : ∀ (s : State) (w : CmdWord) (rest : List PortEvent) (i : Instr),
      s.port = .command w :: rest → decode w = .ok i → step s = exec i { s with port := rest } :=
    fun s w rest i hport hdecode => by
      rw [step_cons hport, acceptEvent_command, acceptWord_ok hdecode]
  exact ⟨hstep, fun s nbits w i htable => hstep (s.withFetchWord nbits w) _ s.port i rfl (decode_tableWord htable)⟩

/-- Settles O9: with no event the step is `State.idle`. -/
theorem idleEngineStaysPut : Obligations.IdleEngineStaysPut := by
  unfold Obligations.IdleEngineStaysPut
  intro s hport
  rw [step, stepBy, hport, State.idle_eq]

/-- Settles O50: each command has the same arm in both dispatches, so the steps and the cores agree. -/
theorem namedHardwareIsAnInstance : Obligations.NamedHardwareIsAnInstance := by
  unfold Obligations.NamedHardwareIsAnInstance
  refine ⟨rfl, rfl, fun i s => by rw [exec_eq_execAt], fun s => by rw [step_eq_stepAt], ?_⟩
  rw [Sys2Proof.core, coreAt, step_eq_stepAt]

end Sys2Proof.Proofs
end

section
/-! INIT never leaves `ZERO`, FINAL always does (spec/10_state.md rule R27). -/

namespace Sys2Proof.Machine

/-- V0 and V2 carry the same key half under different constants, so one of them is not zero. -/
theorem keyedWords_ne_zero (k0 k1 : Word) : ¬ ((keyedWords k0 k1).v0 = 0 ∧ (keyedWords k0 k1).v2 = 0) := by
  rintro ⟨hv0, hv2⟩
  have hk0 : (0x736f6d6570736575 : Word) = k0 := BitVec.xor_eq_zero_iff.mp hv0
  have hk2 : (0x6c7967656e657261 : Word) = k0 := BitVec.xor_eq_zero_iff.mp hv2
  exact absurd (hk0.trans hk2.symm) (by decide)

theorem initEngine_ne_zero (k0 k1 : Word) : initEngine k0 k1 ≠ Engine.zero := fun h =>
  absurd ((initEngine_active k0 k1).symm.trans (congrArg Engine.active h)) (by decide)

theorem exec_final_engine {s t : State} (h : exec .final s = .next t) : t.engine = Engine.zero := by
  rcases exec_cases h with ⟨k0, k1, hinit, -⟩ | ⟨data, hbeat, -⟩ | ⟨-, -, rfl⟩
  · exact absurd hinit (by simp)
  · exact absurd hbeat (by simp [beatOf])
  · exact State.wipe_engine _

end Sys2Proof.Machine
end

section
/-! What the host sees of a run without a FINAL word (spec/10_state.md rule R25): ACTIVE tells whether the last event was a
command, and no response is added. -/

namespace Sys2Proof.Machine

theorem andThen_eq_next {o : Host.Outcome State Fault Refusal} {k : State → Host.Outcome State Fault Refusal} {t : State} :
    andThen o k = .next t ↔ ∃ s, o = .next s ∧ k s = .next t := by
  cases o <;> simp [andThen]

/-- An accepted word that is answered is a defined command that is answered. -/
theorem acceptWord_eq_next {w : CmdWord} {s t : State} :
    acceptWord w s = .next t ↔ ∃ i, decode w = .ok i ∧ exec i s = .next t := by
  cases hd : decode w with
  | ok i => simp [acceptWord_ok hd]
  | error why => simp [acceptWord_error hd]

/-- Only the header 0x30 is decoded as FINAL: every other branch of the decoder answers another command or an error. -/
theorem header_of_decode_final {w : CmdWord} (h : decode w = .ok .final) : CmdWord.header w = 0x30 := by
  rw [word_eq w, decode_cmdWord] at h
  have hfields : CmdWord.op w = 3 ∧ (CmdWord.count w).toNat = 0 := by
    split_ifs at h <;> simp_all
  obtain ⟨hop, hcount⟩ := hfields
  rw [header_eq, hop, BitVec.eq_of_toNat_eq (x := CmdWord.count w) (y := 0) hcount]
  rfl

/-- INIT sets ACTIVE and a legal UPDATE leaves it set; neither answers anything. -/
theorem exec_observed {i : Instr} {s t : State} (hi : i ≠ .final) (h : exec i s = .next t) :
    t.observed = (true, s.responses) := by
  rcases exec_cases h with ⟨k0, k1, -, rfl⟩ | ⟨data, -, hactive, rfl⟩ | ⟨hfinal, -⟩
  · rfl
  · simp [State.observed, State.activeOut, hactive]
  · exact absurd hfinal hi

/-- Whether an event is a command word and not a reset. -/
def PortEvent.isCommand : PortEvent → Bool
  | .command _ => true
  | .reset _ => false

theorem acceptEvent_observed {ev : PortEvent} {s t : State} (hev : NotFinal ev) (h : acceptEvent ev s = .next t) :
    t.observed = (ev.isCommand, s.responses) := by
  cases ev with
  | command w =>
    obtain ⟨i, hdecode, hexec⟩ := acceptWord_eq_next.mp h
    have hi : i ≠ .final := by
      rintro rfl
      exact hev (header_of_decode_final hdecode)
    exact exec_observed hi hexec
  | reset beside =>
    obtain rfl : s.applyReset = t := by simpa using h
    rfl

/-- The view of the host after a run without FINAL, from the kinds of the events alone. -/
theorem runEvents_observed {evs : List PortEvent} {s t : State} (hevs : ∀ ev ∈ evs, NotFinal ev)
    (h : runEvents evs s = .next t) :
    t.observed = ((evs.map PortEvent.isCommand).getLastD s.activeOut, s.responses) := by
  induction evs generalizing s with
  | nil =>
    obtain rfl : s = t := by simpa using h
    rfl
  | cons ev evs ih =>
    obtain ⟨hev, hevs⟩ := List.forall_mem_cons.mp hevs
    rw [runEvents_cons] at h
    obtain ⟨u, haccept, hrun⟩ := andThen_eq_next.mp h
    obtain ⟨hactive, hresponses⟩ := Prod.mk.inj (acceptEvent_observed hev haccept)
    rw [ih hevs hrun, hactive, hresponses, List.map_cons, List.getLastD_cons]

theorem SameHeader.isCommand_eq : ∀ {a b : PortEvent}, SameHeader a b → a.isCommand = b.isCommand
  | .command _, .command _, _ => rfl
  | .reset _, .reset _, _ => rfl
  | .command _, .reset _, h => h.elim
  | .reset _, .command _, h => h.elim

theorem SameHeader.notFinal : ∀ {a b : PortEvent}, SameHeader a b → NotFinal a → NotFinal b
  | .command _, .command _, h, ha => fun hb => ha (Eq.trans h hb)
  | _, .reset _, _, _ => trivial
  | .reset _, .command _, h, _ => h.elim

theorem map_isCommand_eq {as bs : List PortEvent} (h : List.Forall₂ SameHeader as bs) :
    as.map PortEvent.isCommand = bs.map PortEvent.isCommand := by
  induction h with
  | nil => rfl
  | cons hab _ ih => rw [List.map_cons, List.map_cons, hab.isCommand_eq, ih]

theorem forall_notFinal {as bs : List PortEvent} (h : List.Forall₂ SameHeader as bs) (has : ∀ ev ∈ as, NotFinal ev) :
    ∀ ev ∈ bs, NotFinal ev := by
  induction h with
  | nil => exact has
  | cons hab _ ih =>
    obtain ⟨ha, has⟩ := List.forall_mem_cons.mp has
    exact List.forall_mem_cons.mpr ⟨hab.notFinal ha, ih has⟩

end Sys2Proof.Machine
end

section
/-! The statements about the state: reset, the invariant, what the host sees (spec/10_state.md sections 8 and 9). -/

namespace Sys2Proof.Proofs

open Sys2Proof.Machine

/-- Settles O28: this hardware is an instance, and every step keeps the invariant at every round count. -/
theorem invariantIsKept : Obligations.InvariantIsKept := by
  unfold Obligations.InvariantIsKept
  intro s t hs hstep
  rw [step_eq_stepAt] at hstep
  exact stepAt_inv hs hstep

/-- Settles O14: FINAL and reset write `ZERO`, and INIT loads V0 and V2 from one key half under two constants. -/
theorem initNeverLeavesZero : Obligations.InitNeverLeavesZero := by
  unfold Obligations.InitNeverLeavesZero
  refine ⟨fun s t h => exec_final_engine h, fun s beside => acceptEvent_reset beside s, rfl, fun k0 k1 s t h => ?init⟩
  case init =>
    obtain rfl : s.setEngine (initEngine k0 k1) = t := by simpa [exec_init] using h
    exact ⟨keyedWords_ne_zero k0 k1, rfl, initEngine_ne_zero k0 k1⟩

/-- Settles O46: each view is a function of the starting view and of the kinds of the events, which the headers give. -/
theorem nothingShowsBeforeFinal : Obligations.NothingShowsBeforeFinal := by
  unfold Obligations.NothingShowsBeforeFinal
  intro as bs s t s' t' hheaders has hobserved hruns hrunt
  obtain ⟨hactive, hresponses⟩ := Prod.mk.inj hobserved
  rw [runEvents_observed has hruns, runEvents_observed (forall_notFinal hheaders has) hrunt, map_isCommand_eq hheaders,
    hactive, hresponses]

/-- Settles O10: the step on a reset is `State.applyReset`, which drops the word beside it. -/
theorem resetZeroesEveryItem : Obligations.ResetZeroesEveryItem := by
  unfold Obligations.ResetZeroesEveryItem
  refine ⟨fun s beside rest hport => ⟨State.applyReset { s with port := rest }, ?step, rfl, rfl, rfl, rfl,
    Memory.read_nil, rfl, rfl, rfl, rfl, rfl⟩, rfl, Memory.read_nil, rfl, rfl, rfl⟩
  case step => rw [step_cons hport, acceptEvent_reset]

/-- Settles O29: the record is `ZERO`. -/
theorem invariantHoldsAtReset : Obligations.InvariantHoldsAtReset := by
  unfold Obligations.InvariantHoldsAtReset
  exact Engine.zero_inv

end Sys2Proof.Proofs
end

section
/-! A run of the machine is the fold of the events at its port (spec/20_memory.md rule R38): what an event does is the same
whatever is presented after it, and no event touches the port. -/

namespace Sys2Proof.Machine

/-- Legality reads ACTIVE alone, so it is the same whatever the host presents next. -/
theorem whenActive_presenting (s t : State) (p : List PortEvent) :
    whenActive { s with port := p } { t with port := p }
      = andThen (whenActive s t) (fun u => .next { u with port := p }) := by
  cases ha : s.engine.active with
  | true => rw [whenActive_next (s := { s with port := p }) ha, whenActive_next ha, andThen_next]
  | false => rw [whenActive_refused (s := { s with port := p }) ha, whenActive_refused ha, andThen_refused]

/-- A command answers the same whatever the host presents next, refusals included. -/
theorem exec_presenting (i : Instr) (s : State) (p : List PortEvent) :
    exec i { s with port := p } = andThen (exec i s) (fun t => .next { t with port := p }) := by
  rcases instr_cases i with ⟨k0, k1, rfl⟩ | ⟨data, hdata⟩ | rfl
  · rfl
  · rw [exec_beat hdata, exec_beat hdata]
    exact whenActive_presenting s (s.setEngine (updateEngine Config.sipHash24 data s.engine)) p
  · rw [exec_final, exec_final]
    exact whenActive_presenting s (s.emit (finalDigest Config.sipHash24 s.engine)).wipe p

theorem acceptEvent_presenting (ev : PortEvent) (s : State) (p : List PortEvent) :
    acceptEvent ev { s with port := p } = andThen (acceptEvent ev s) (fun t => .next { t with port := p }) := by
  cases ev with
  | command w =>
    rw [acceptEvent_command, acceptEvent_command]
    cases hdecode : decode w with
    | ok i => rw [acceptWord_ok hdecode, acceptWord_ok hdecode, exec_presenting]
    | error why => rw [acceptWord_error hdecode, acceptWord_error hdecode, andThen_refused]
  | reset beside => rfl

/-- No event touches what the host presents after it. -/
theorem acceptEvent_port {ev : PortEvent} {s t : State} (h : acceptEvent ev s = .next t) : t.port = s.port := by
  have hsame := acceptEvent_presenting ev s s.port
  rw [h, andThen_next] at hsame
  rw [Host.Outcome.next.inj hsame]

/-- As many steps as there are events are the run of those events, and leave what is presented after them. -/
theorem core_run_events {evs rest : List PortEvent} {s : State} (hport : s.port = evs ++ rest) :
    Sys2Proof.core.run evs.length s = runEvents evs { s with port := rest } := by
  induction evs generalizing s with
  | nil =>
    obtain ⟨e, p, r⟩ := s
    obtain rfl : p = rest := hport
    rfl
  | cons ev evs ih =>
    have hstep : step s
        = andThen (acceptEvent ev { s with port := rest }) (fun t => .next { t with port := evs ++ rest }) :=
      (step_cons hport).trans (acceptEvent_presenting ev { s with port := rest } (evs ++ rest))
    rw [List.length_cons, core_run_succ, hstep, runEvents_cons]
    cases haccept : acceptEvent ev { s with port := rest } with
    | next t =>
      obtain rfl : t.port = rest := acceptEvent_port haccept
      exact ih rfl
    | fault why => cases why
    | refused why => rfl

end Sys2Proof.Machine
end

section
/-! A little-endian number as the sum of its bytes' places, and the bytes of a word (spec/20_memory.md rules R28, R30). -/

namespace Sys2Proof.Machine

/-- The number of a byte string is the sum of rule R12. -/
theorem leNat_eq_sum (bs : List Byte) :
    leNat bs = ((List.range bs.length).map (fun i => (bs.getD i 0).toNat * 2 ^ (8 * i))).sum := by
  induction bs with
  | nil => rfl
  | cons b bs ih =>
    have hplace : ∀ i, (bs.getD i 0).toNat * 2 ^ (8 * (i + 1)) = 256 * ((bs.getD i 0).toNat * 2 ^ (8 * i)) :=
      fun i => by rw [Nat.mul_succ, Nat.pow_add]; ring
    rw [leNat_cons, ih, List.length_cons, List.range_succ_eq_map, List.map_cons, List.sum_cons, List.map_map,
      ← List.sum_map_mul_left]
    simp only [Function.comp_def, Nat.succ_eq_add_one, List.getD_cons_zero, List.getD_cons_succ, hplace, Nat.mul_zero,
      pow_zero, Nat.mul_one]

/-- The eight bytes of a word, made a word again. -/
theorem le64_bytesLE (w : Word) : le64 (bytesLE w) = w := by
  have hbytes : leNat (bytesLE w) = w.toNat := leNat_byteLanes (n := 8) w
  rw [le64, hbytes, BitVec.ofNat_toNat, BitVec.setWidth_eq]

theorem bytesLE_getD (w : Word) {i : Nat} (h : i < 8) : (bytesLE w).getD i 0 = laneByte w i := by
  rw [List.getD_eq_getElem _ _ (by simpa using h)]
  exact lanes_getElem w 8 i _

end Sys2Proof.Machine
end

section
/-! The statements about the memory: the run as a left fold, and byte order (spec/20_memory.md). -/

namespace Sys2Proof.Proofs

open Sys2Proof.Machine

/-- Settles O11: runs append as folds do, and each step takes the first event off the port and leaves the rest there. -/
theorem runsAreLeftFolds : Obligations.RunsAreLeftFolds := by
  unfold Obligations.RunsAreLeftFolds
  exact ⟨fun as bs s => foldAll_append acceptEvent as bs s, fun s => core_run_events (List.append_nil _).symm⟩

/-- Settles O38: the sum of the places, the two inverses, the eight reads of BUF, and the lanes of the digest. -/
theorem wordsAreLittleEndian : Obligations.WordsAreLittleEndian := by
  unfold Obligations.WordsAreLittleEndian
  refine ⟨fun b hlen => ⟨?sum, bytesLE_le64 hlen⟩, le64_bytesLE, Memory.blockWord_eq, fun d i hi => bytesLE_getD d hi⟩
  case sum => rw [le64_toNat hlen.le, leNat_eq_sum, hlen]

end Sys2Proof.Proofs
end

section
/-! The decoder, one equation per value of `op`, and what it accepts and rejects, read off the fields
(spec/30_encoding.md rules R47 and R49). -/

namespace Sys2Proof

open Sys2Proof.Machine

variable {w : CmdWord}

theorem decode_of_op_one (h : CmdWord.op w = 1) : decode w =
    if (CmdWord.count w).toNat = 0 then .ok (.init (CmdWord.lo w) (CmdWord.hi w)) else .error .initCount := by
  simp [decode, h]

theorem decode_of_op_two (h : CmdWord.op w = 2) : decode w =
    if (CmdWord.count w).toNat ≤ 7 then .ok (.update (lanes (CmdWord.lo w) (CmdWord.count w).toNat))
    else if (CmdWord.count w).toNat = 8 then .ok (.updateFull (CmdWord.lo w))
    else .error .updateCount := by
  simp [decode, h]

theorem decode_of_op_three (h : CmdWord.op w = 3) : decode w =
    if (CmdWord.count w).toNat = 0 then .ok .final else .error .finalCount := by
  simp [decode, h]

/-- The opcodes of class (a) of rule R47. -/
def ReservedOp (op : BitVec 4) : Prop := op = 0 ∨ 4 ≤ op.toNat

theorem op_cases (op : BitVec 4) : op = 1 ∨ op = 2 ∨ op = 3 ∨ ReservedOp op := by
  unfold ReservedOp
  revert op
  decide

theorem ReservedOp.ne {op : BitVec 4} (h : ReservedOp op) : op ≠ 1#4 ∧ op ≠ 2#4 ∧ op ≠ 3#4 := by
  unfold ReservedOp at h
  revert op
  decide

theorem decode_of_reservedOp (h : ReservedOp (CmdWord.op w)) : decode w = .error .opcode := by
  simp [decode, h.ne]

/-- The class of a reserved word, read off `op` and n (rule R47). -/
def Reserved.covers (op : BitVec 4) (n : Nat) : Reserved → Prop
  | .opcode => ReservedOp op
  | .initCount => op = 1 ∧ n ≠ 0
  | .finalCount => op = 3 ∧ n ≠ 0
  | .updateCount => op = 2 ∧ 9 ≤ n

/-- The fields of a defined word (rule R49). -/
def DefinedFields (op : BitVec 4) (n : Nat) : Prop := (op = 1 ∧ n = 0) ∨ (op = 2 ∧ n ≤ 8) ∨ (op = 3 ∧ n = 0)

theorem definedFields_or_covered (op : BitVec 4) (n : Nat) :
    DefinedFields op n ∨ ∃ why : Reserved, why.covers op n := by
  rcases op_cases op with hop | hop | hop | hop
  · by_cases hn : n = 0
    · exact .inl (.inl ⟨hop, hn⟩)
    · exact .inr ⟨.initCount, hop, hn⟩
  · by_cases hn : n ≤ 8
    · exact .inl (.inr (.inl ⟨hop, hn⟩))
    · exact .inr ⟨.updateCount, hop, Nat.not_le.mp hn⟩
  · by_cases hn : n = 0
    · exact .inl (.inr (.inr ⟨hop, hn⟩))
    · exact .inr ⟨.finalCount, hop, hn⟩
  · exact .inr ⟨.opcode, hop⟩

theorem decode_error_of_covers {why : Reserved} (h : why.covers (CmdWord.op w) (CmdWord.count w).toNat) :
    decode w = .error why := by
  cases why with
  | opcode => exact decode_of_reservedOp h
  | initCount =>
    obtain ⟨hop, hn⟩ := h
    rw [decode_of_op_one hop, if_neg hn]
  | finalCount =>
    obtain ⟨hop, hn⟩ := h
    rw [decode_of_op_three hop, if_neg hn]
  | updateCount =>
    obtain ⟨hop, hn⟩ := h
    rw [decode_of_op_two hop, if_neg (by omega), if_neg (by omega)]

theorem decode_init (h : CmdWord.op w = 1) (hn : (CmdWord.count w).toNat = 0) :
    decode w = .ok (.init (CmdWord.lo w) (CmdWord.hi w)) :=
  (decode_of_op_one h).trans (if_pos hn)

/-- Both UPDATE forms carry the lanes below n (rule R44). -/
theorem decode_beat (h : CmdWord.op w = 2) (hn : (CmdWord.count w).toNat ≤ 8) :
    ∃ i, decode w = .ok i ∧ beatOf i = some (lanes (CmdWord.lo w) (CmdWord.count w).toNat) := by
  rw [decode_of_op_two h]
  by_cases hshort : (CmdWord.count w).toNat ≤ 7
  · exact ⟨_, if_pos hshort, rfl⟩
  · have hfull : (CmdWord.count w).toNat = 8 := by omega
    exact ⟨.updateFull (CmdWord.lo w), by simp [hfull], by rw [hfull]; rfl⟩

theorem decode_final (h : CmdWord.op w = 3) (hn : (CmdWord.count w).toNat = 0) : decode w = .ok .final :=
  (decode_of_op_three h).trans (if_pos hn)

theorem decode_ok_of_definedFields (h : DefinedFields (CmdWord.op w) (CmdWord.count w).toNat) :
    ∃ i, decode w = .ok i := by
  rcases h with ⟨hop, hn⟩ | ⟨hop, hn⟩ | ⟨hop, hn⟩
  · exact ⟨_, decode_init hop hn⟩
  · obtain ⟨i, hi, -⟩ := decode_beat hop hn
    exact ⟨i, hi⟩
  · exact ⟨_, decode_final hop hn⟩

theorem decode_ok_iff (w : CmdWord) :
    (∃ i, decode w = .ok i) ↔ DefinedFields (CmdWord.op w) (CmdWord.count w).toNat := by
  refine ⟨fun ⟨i, hi⟩ => ?_, decode_ok_of_definedFields⟩
  obtain h | ⟨why, h⟩ := definedFields_or_covered (CmdWord.op w) (CmdWord.count w).toNat
  · exact h
  · exact absurd (hi.symm.trans (decode_error_of_covers h)) (by simp)

/-- A word is rejected in the class its fields fall in, and in no other. -/
theorem decode_error_iff (w : CmdWord) (why : Reserved) :
    decode w = .error why ↔ why.covers (CmdWord.op w) (CmdWord.count w).toNat := by
  refine ⟨fun hwhy => ?_, decode_error_of_covers⟩
  obtain h | ⟨why', h⟩ := definedFields_or_covered (CmdWord.op w) (CmdWord.count w).toNat
  · obtain ⟨i, hi⟩ := decode_ok_of_definedFields h
    exact absurd (hi.symm.trans hwhy) (by simp)
  · obtain rfl : why' = why := Except.error.inj ((decode_error_of_covers h).symm.trans hwhy)
    exact h

theorem decode_rejects_iff (w : CmdWord) : (∃ why, decode w = .error why) ↔ ¬ ∃ i, decode w = .ok i := by
  cases decode w <;> simp

/-- The 11 header bytes that rule R47 counts as defined. -/
def definedHeaders : List (BitVec 8) := [0x10, 0x20, 0x21, 0x22, 0x23, 0x24, 0x25, 0x26, 0x27, 0x28, 0x30]

theorem mem_definedHeaders_iff (w : CmdWord) :
    CmdWord.header w ∈ definedHeaders ↔ DefinedFields (CmdWord.op w) (CmdWord.count w).toNat := by
  have hall : ∀ op n : BitVec 4, op ++ n ∈ definedHeaders ↔ DefinedFields op n.toNat := by
    unfold DefinedFields
    decide
  rw [header_eq]
  exact hall _ _

/-- INIT is read from `op` 1 and n 0 alone, with the key in `lo` and `hi` (rule R43). -/
theorem decode_eq_init_iff (w : CmdWord) (k0 k1 : Word) : decode w = .ok (.init k0 k1) ↔
    (CmdWord.op w = 1 ∧ (CmdWord.count w).toNat = 0) ∧ CmdWord.lo w = k0 ∧ CmdWord.hi w = k1 := by
  refine ⟨fun h => ?_, fun ⟨⟨hop, hn⟩, hlo, hhi⟩ => by rw [decode_init hop hn, hlo, hhi]⟩
  rcases (decode_ok_iff w).mp ⟨_, h⟩ with ⟨hop, hn⟩ | ⟨hop, hn⟩ | ⟨hop, hn⟩
  · obtain ⟨hlo, hhi⟩ : CmdWord.lo w = k0 ∧ CmdWord.hi w = k1 := by simpa [decode_init hop hn] using h
    exact ⟨⟨hop, hn⟩, hlo, hhi⟩
  · obtain ⟨i, hi, hbeat⟩ := decode_beat hop hn
    obtain rfl : i = .init k0 k1 := Except.ok.inj (hi.symm.trans h)
    exact absurd hbeat (by simp [beatOf])
  · exact absurd ((decode_final hop hn).symm.trans h) (by simp)

theorem header_eq_init_iff (w : CmdWord) :
    CmdWord.header w = 0x10 ↔ CmdWord.op w = 1 ∧ (CmdWord.count w).toNat = 0 := by
  have hall : ∀ op n : BitVec 4, op ++ n = (0x10 : BitVec 8) ↔ op = 1 ∧ n.toNat = 0 := by decide
  rw [header_eq]
  exact hall _ _

end Sys2Proof
end

section
/-! Lanes of words and of the fields of a command word (spec/30_encoding.md rules R41, R44). -/

namespace Sys2Proof.Machine

theorem lanes_congr {a b : Word} {n : Nat} (h : ∀ j, j < n → laneByte a j = laneByte b j) : lanes a n = lanes b n :=
  List.map_congr_left (fun j hj => h j (List.mem_range.mp hj))

/-- Two words with the same eight lanes are the same word. -/
theorem word_ext_lanes {a b : Word} (h : ∀ j, j < 8 → laneByte a j = laneByte b j) : a = b := by
  rw [← le64_bytesLE a, ← le64_bytesLE b, bytesLE, bytesLE, lanes_congr h]

/-- A lane of a 64-bit field is eight bits of the command word. -/
theorem laneByte_extractLsb' (w : CmdWord) (start : Nat) {j : Nat} (h : j < 8) :
    laneByte (w.extractLsb' start 64) j = w.extractLsb' (start + 8 * j) 8 := by
  apply BitVec.eq_of_getLsbD_eq
  intro i hi
  simp only [laneByte, BitVec.getLsbD_extractLsb', hi, show 8 * j + i < 64 by omega, decide_true, Bool.true_and,
    Nat.add_assoc]

/-- The byte strings in `lo` and `hi`, read as the 16 lanes of one field (rule R43). -/
theorem lane_cmdWord (op n : BitVec 4) {his los : List Byte} (hlo : los.length = 8) (hhi : his.length ≤ 8) {j : Nat}
    (hj : j < 16) : (cmdWord op n (le64 his) (le64 los)).extractLsb' (8 * j) 8 = (los ++ his).getD j 0 := by
  by_cases hlow : j < 8
  · have hlane := laneByte_extractLsb' (cmdWord op n (le64 his) (le64 los)) 0 hlow
    rw [Nat.zero_add] at hlane
    rw [← hlane, List.getD_append _ _ _ _ (by omega), ← laneByte_le64 hlo.le]
    exact congrArg (laneByte · j) (lo_cmdWord op n _ _)
  · have hlane := laneByte_extractLsb' (cmdWord op n (le64 his) (le64 los)) 64 (j := j - 8) (by omega)
    rw [show 64 + 8 * (j - 8) = 8 * j by omega] at hlane
    rw [← hlane, List.getD_append_right _ _ _ _ (by omega), hlo, ← laneByte_le64 hhi]
    exact congrArg (laneByte · (j - 8)) (hi_cmdWord op n _ _)

/-- The halves of a 16-byte key are its two eights. -/
theorem keyHalves_eq {key : List Byte} (h : key.length = 16) :
    keyHalves key = (le64 (key.take 8), le64 (key.drop 8)) := by
  rw [keyHalves, List.take_of_length_le (l := key.drop 8) (by simp [h])]

end Sys2Proof.Machine
end

section
/-! The beats of `UPDATE*` (spec/30_encoding.md rule R51), and the responses of a command (rule R46). -/

namespace Sys2Proof.Machine

theorem beatInstr_wellFormed {beat : List Byte} (h : beat.length ≤ 8) : (beatInstr beat).wellFormed = true := by
  unfold beatInstr
  split
  · rfl
  · simp only [Instr.wellFormed, decide_eq_true_eq]; omega

theorem updateStar_wellFormed {s : List Byte} {i : Instr} (h : i ∈ updateStar s) : i.wellFormed = true := by
  obtain ⟨j, -, rfl⟩ := List.mem_map.mp h
  exact beatInstr_wellFormed (List.length_take_le _ _)

/-- The j-th beat, with its last index written as rule R51 writes it. -/
theorem beatOf_updateStar {s : List Byte} {j : Nat} (h : j < (s.length + 7) / 8) :
    ((updateStar s)[j]?).bind beatOf
      = some ((s.drop (8 * j)).take (min (8 * j + 7) (s.length - 1) + 1 - 8 * j)) := by
  have hbeat : (updateStar s)[j]? = some (beatInstr ((s.drop (8 * j)).take 8)) := by simp [updateStar, h]
  rw [hbeat, Option.bind_some, beatOf_beatInstr, Option.some_inj, List.take_eq_take_iff, List.length_drop]
  omega

/-- UPDATEs in order on this hardware are one UPDATE of the bytes they carry. -/
theorem execAll_beats {is : List Instr} {beats : List (List Byte)} (h : is.map beatOf = beats.map some) {s : State}
    (hs : s.Inv) (ha : s.engine.active = true) :
    execAll is s = .next (s.setEngine (updateEngine Config.sipHash24 beats.flatten s.engine)) := by
  rw [execAll_eq_execAllAt, execAllAt_beats _ h hs ha]

theorem exec_port {i : Instr} {s t : State} (h : exec i s = .next t) : t.port = s.port := by
  rw [exec_eq_execAt] at h
  exact execAt_port h

/-- FINAL answers its digest and no other command answers anything. -/
theorem exec_responses {i : Instr} {s t : State} (h : exec i s = .next t) :
    t.responses = s.responses ++ if i = .final then [finalDigest Config.sipHash24 s.engine] else [] := by
  rcases exec_cases h with ⟨k0, k1, rfl, rfl⟩ | ⟨data, hbeat, -, rfl⟩ | ⟨rfl, -, rfl⟩
  · simp
  · have hi : i ≠ .final := by rintro rfl; simp [beatOf] at hbeat
    simp [hi]
  · simp

end Sys2Proof.Machine
end

section
/-! The statements about the encoding: the fields, the reserved words, the ignored lanes, the key, `UPDATE*` and the
responses (spec/30_encoding.md). -/

namespace Sys2Proof.Proofs

open Sys2Proof.Machine

/-- Settles O3: each class is read off the fields, and so is the membership of the header byte. -/
theorem reservedWordsAreRefused : Obligations.ReservedWordsAreRefused := by
  unfold Obligations.ReservedWordsAreRefused
  intro defined
  have haccepted : ∀ w : CmdWord, (∃ i, decode w = .ok i) ↔ CmdWord.header w ∈ definedHeaders :=
    fun w => (decode_ok_iff w).trans (mem_definedHeaders_iff w).symm
  refine ⟨fun w => ⟨decode_error_iff w .opcode, decode_error_iff w .initCount, decode_error_iff w .finalCount,
    decode_error_iff w .updateCount, haccepted w⟩, by decide, rfl, rfl, fun s w rest hport hheader => ?refused⟩
  case refused =>
    obtain ⟨why, hwhy⟩ := (decode_rejects_iff w).mpr (fun hok => hheader ((haccepted w).mp hok))
    exact ⟨why, by rw [step_cons hport, acceptEvent_command, acceptWord_error hwhy]⟩

/-- Settles O4: the decoder's equation for op 2 reads the lanes below n only, and the one for op 3 reads no lane. -/
theorem ignoredFieldsAreDropped : Obligations.IgnoredFieldsAreDropped := by
  unfold Obligations.IgnoredFieldsAreDropped
  intro w w' hheader
  obtain ⟨hop, hcount⟩ := fields_of_header hheader
  refine ⟨fun h hlanes => ?update, fun h => ?final⟩
  case update =>
    rw [decode_of_op_two h, decode_of_op_two (hop ▸ h), ← hcount, lanes_congr hlanes]
    split_ifs with hshort hfull
    · rfl
    · rw [hfull] at hlanes
      rw [word_ext_lanes hlanes]
    · rfl
  case final => rw [decode_of_op_three h, decode_of_op_three (hop ▸ h), hcount]

/-- Settles O7: the fields of an INIT word, the encoder's word for any key, and the lanes of its two halves. -/
theorem initWordCarriesTheKey : Obligations.InitWordCarriesTheKey := by
  unfold Obligations.InitWordCarriesTheKey
  refine ⟨fun k0 k1 w => ?fields, fun k0 k1 => ⟨encode (.init k0 k1), decode_encode rfl⟩, fun key hkey => ?bytes⟩
  case fields => exact (decode_eq_init_iff w k0 k1).trans (and_congr_left' (header_eq_init_iff w).symm)
  case bytes =>
    intro w
    have hw : w = encode (.init (le64 (key.take 8)) (le64 (key.drop 8))) := by
      simp only [w, keyHalves_eq hkey]
    refine ⟨hw ▸ decode_encode rfl, fun j hj => ?_⟩
    rw [hw, encode, lane_cmdWord _ _ (by simp [hkey]) (by simp [hkey]) hj, List.take_append_drop]

/-- Settles O20: any cut of s, its blocks included, is one UPDATE of s. -/
theorem updateStarExpandsAnyString : Obligations.UpdateStarExpandsAnyString := by
  unfold Obligations.UpdateStarExpandsAnyString
  refine fun s => ⟨by simp [updateStar], fun i hi => updateStar_wellFormed hi, fun j hj => beatOf_updateStar hj,
    fun is beats m hbeats hflat _ hinv hactive => ⟨m.setEngine (updateEngine Config.sipHash24 s m.engine), ?_, ?_⟩⟩
  · rw [execAll_beats (updateStar_beats s) hinv hactive, beatsOf_flatten]
  · rw [execAll_beats hbeats hinv hactive, hflat]

/-- Settles O27, by the cases of a step: nothing presented, reset, or one decoded command. -/
theorem responsesComeOnlyFromFinal : Obligations.ResponsesComeOnlyFromFinal := by
  unfold Obligations.ResponsesComeOnlyFromFinal
  intro s t hstep
  rcases step_cases hstep with ⟨hport, rfl⟩ | ⟨beside, rest, hport, rfl⟩ | ⟨w, rest, i, hport, hdecode, hexec⟩
  · exact ⟨by rw [hport]; rfl, .inr ⟨by simp [hport], rfl⟩⟩
  · exact ⟨by rw [hport]; rfl, .inr ⟨by simp [hport], rfl⟩⟩
  · refine ⟨by rw [exec_port hexec, hport]; rfl, ?_⟩
    have hresponses := exec_responses hexec
    by_cases hi : i = .final
    · subst hi
      exact .inl ⟨w, rest, hport, hdecode, hresponses⟩
    · rw [if_neg hi, List.append_nil] at hresponses
      exact .inr ⟨by simp [hport, hdecode, hi], hresponses⟩

/-- Settles O2: the decoder's equation for each `op`, and every word that none of them accepts. -/
theorem decodeReadsTheFields : Obligations.DecodeReadsTheFields := by
  unfold Obligations.DecodeReadsTheFields
  intro w op n hi lo
  refine ⟨fun ⟨hop, hn⟩ => decode_init hop hn, fun ⟨hop, hn⟩ => decode_beat hop hn,
    fun ⟨hop, hn⟩ => decode_final hop hn, fun ⟨hinit, hupdate, hfinal⟩ => ?rejected⟩
  case rejected =>
    have hnot : ¬ DefinedFields op n := by simp only [DefinedFields, not_or]; exact ⟨hinit, hupdate, hfinal⟩
    exact (decode_rejects_iff w).mpr (fun hok => hnot ((decode_ok_iff w).mp hok))

end Sys2Proof.Proofs
end

section
/-! What one UPDATE command writes (spec/40_init_update_final.md rules R55, R56): the bytes at `used` when no block
completes, in every record, and the one block that completes when the data has at most 8 bytes. -/

namespace Sys2Proof.Machine

@[simp] theorem State.setEngine_self (s : State) : s.setEngine s.engine = s := rfl

theorem State.setEngine_setEngine (s : State) (e e' : Engine) : (s.setEngine e).setEngine e' = s.setEngine e' := rfl

theorem exec_beat_active {i : Instr} {data : List Byte} (h : beatOf i = some data) {s : State}
    (ha : s.engine.active = true) :
    exec i s = .next (s.setEngine (updateEngine Config.sipHash24 data s.engine)) := by
  rw [exec_eq_execAt, execAt_beat_active _ h ha]

theorem exec_beat_idle {i : Instr} {data : List Byte} (h : beatOf i = some data) {s : State}
    (ha : s.engine.active = false) : exec i s = .refused .noComputation := by
  rw [exec_eq_execAt, execAt_beat_idle _ h ha]

theorem exec_beat_next {i : Instr} {data : List Byte} (h : beatOf i = some data) {s t : State}
    (hnext : exec i s = .next t) : t = s.setEngine (updateEngine Config.sipHash24 data s.engine) := by
  cases ha : s.engine.active with
  | true =>
    rw [exec_beat_active h ha] at hnext
    injection hnext with ht
    exact ht.symm
  | false =>
    rw [exec_beat_idle h ha] at hnext
    cases hnext

/-- UPDATE that completes no block writes its bytes at `used` and counts them, in every record. -/
theorem updateEngine_short (c : Config) {data : List Byte} {e : Engine} (h : e.used + data.length < 8) :
    updateEngine c data e
      = { e with buf := e.buf.writeBytes e.used data, bytes := addBytes e.bytes data.length } := by
  simp only [updateEngine]
  split_ifs with hempty hused hshort
  · obtain rfl := List.length_eq_zero_iff.mp hempty
    simp [addBytes, Memory.writeBytes]
  · rfl
  · omega
  · have hzero : e.used = 0 := by omega
    have hblocks : data.length / 8 = 0 := by omega
    simp [absorbInput, hzero, hblocks]

theorem updateEngine_v_short (c : Config) {data : List Byte} {e : Engine} (h : e.used + data.length < 8) :
    (updateEngine c data e).v = e.v := by
  rw [updateEngine_short c h]

theorem updateEngine_read_unwritten (c : Config) {data : List Byte} {e : Engine} (h : e.used + data.length < 8)
    {a : Nat} (ha : a < e.used ∨ e.used + data.length ≤ a) : (updateEngine c data e).buf.read a = e.buf.read a := by
  rw [updateEngine_short c h, Memory.read_writeBytes, if_neg (by omega)]

theorem updateEngine_read_written (c : Config) {data : List Byte} {e : Engine} (h : e.used + data.length < 8)
    {j : Nat} (hj : j < data.length) : (updateEngine c data e).buf.read (e.used + j) = data.getD j 0 := by
  rw [updateEngine_short c h, Memory.read_writeBytes, if_pos (by omega), Nat.add_sub_cancel_left]

/-- Absorbing the input writes fewer than 8 bytes, from index 0. -/
theorem absorbInput_wf (c : Config) (data : List Byte) {e : Engine} (h : e.buf.wf) : (absorbInput c data e).buf.wf :=
  Memory.writeBytes_wf h (by rw [List.length_drop]; omega)

/-- UPDATE keeps BUF canonical in every record, stale bytes above the valid ones included. -/
theorem updateEngine_wf (c : Config) (data : List Byte) {e : Engine} (h : e.buf.wf) :
    (updateEngine c data e).buf.wf := by
  simp only [updateEngine]
  split_ifs with hempty hused hshort
  · exact h
  · exact Memory.writeBytes_wf h (by omega)
  · exact absorbInput_wf c _ Memory.cleared_wf
  · exact absorbInput_wf c _ h

/-- When one block completes, it is the valid bytes topped up from the data. -/
theorem updateEngine_v_block (c : Config) {data : List Byte} {e : Engine} (h : e.Inv) (hlo : 8 ≤ e.used + data.length)
    (hhi : e.used + data.length < 16) :
    (updateEngine c data e).v = compress c.rc e.v (le64 (e.validBytes ++ data.take (8 - e.used))) := by
  have hblocks : (e.used + data.length) / 8 = 1 := by omega
  have hvalid : e.validBytes.take 8 = e.validBytes :=
    List.take_of_length_le (by rw [Engine.validBytes_length]; exact e.used_lt.le)
  rw [updateEngine_v c data h, hblocks]
  simp [List.take_append, hvalid]

/-- Data that fills BUF exactly is absorbed whole. -/
theorem updateEngine_v_fill (c : Config) {data : List Byte} {e : Engine} (h : e.Inv)
    (hfull : e.used + data.length = 8) :
    (updateEngine c data e).v = compress c.rc e.v (le64 (e.validBytes ++ data)) := by
  rw [updateEngine_v_block c h hfull.ge (by omega), List.take_of_length_le (by omega)]

/-- A full beat fills BUF exactly only when BUF holds no valid byte, and is then absorbed as it stands. -/
theorem updateEngine_v_full_beat (c : Config) (block : Word) {e : Engine} (h : e.Inv)
    (hfull : e.used + (bytesLE block).length = 8) :
    e.used = 0 ∧ (updateEngine c (bytesLE block) e).v = compress c.rc e.v block := by
  have hempty : e.used = 0 := by rw [bytesLE_length] at hfull; omega
  have hvalid : e.validBytes = [] := List.length_eq_zero_iff.mp (e.validBytes_length.trans hempty)
  refine ⟨hempty, ?_⟩
  rw [updateEngine_v_fill c h hfull, hvalid, List.nil_append, le64_bytesLE]

theorem updateEngine_read_fill (c : Config) {data : List Byte} {e : Engine} (h : e.Inv)
    (hfull : e.used + data.length = 8) (a : Nat) : (updateEngine c data e).buf.read a = 0 := by
  rw [updateEngine_read c data h, hfull, if_neg (Nat.not_lt_zero a)]

section Spill

/-! Data that fills BUF and goes on, but not to a second block. -/

variable (c : Config) {data : List Byte} {e : Engine} (h : e.Inv) (hlo : 8 < e.used + data.length)
  (hhi : e.used + data.length < 16)

include h hlo hhi

theorem updateEngine_read_spilled {j : Nat} (hj : j < e.used + data.length - 8) :
    (updateEngine c data e).buf.read j = data.getD (8 - e.used + j) 0 := by
  have hu := e.used_lt
  have hblocks : (e.used + data.length) / 8 = 1 := by omega
  have hindex : 8 * 1 + j - e.used = 8 - e.used + j := by omega
  rw [updateEngine_read c data h, if_pos (by omega), hblocks, getD_append_byte, Engine.validBytes_length,
    if_neg (by omega), hindex]

theorem updateEngine_read_above_spilled {a : Nat} (ha : e.used + data.length - 8 ≤ a) :
    (updateEngine c data e).buf.read a = 0 := by
  rw [updateEngine_read c data h, if_neg (by omega)]

end Spill

end Sys2Proof.Machine
end

section
/-! The final block as a number (spec/40_init_update_final.md rule R60). -/

namespace Sys2Proof.Machine

theorem lowByte_toNat (w : Word) : (lowByte w).toNat = w.toNat % 256 := by
  simp [lowByte]

theorem leNat_validBytes (e : Engine) :
    leNat e.validBytes = ((List.range e.used).map (fun i => (e.buf.read i).toNat * 2 ^ (8 * i))).sum := by
  rw [leNat_eq_sum, Engine.validBytes_length]
  congr 1
  exact List.map_congr_left (fun i hi => by rw [Engine.validBytes_getD e (List.mem_range.mp hi)])

/-- The length byte stands above seven bytes, of which those that are not valid count nothing. -/
theorem finalBlock_toNat (e : Engine) :
    (finalBlock e).toNat = e.bytes.toNat % 256 * 2 ^ 56 + leNat e.validBytes := by
  have hu := e.used_lt
  have hseven : (e.validBytes ++ List.replicate (7 - e.used) (0 : Byte)).length = 7 := by simp; omega
  have hpad : leNat (List.replicate (7 - e.used) (0 : Byte)) = 0 := leNat_replicate_zero _
  rw [finalBlock_eq, le64_toNat (by rw [List.length_append, hseven]; rfl), leNat_append, leNat_append, hseven,
    hpad, leNat_cons, leNat_nil, lowByte_toNat]
  omega

end Sys2Proof.Machine
end

section
/-! The statements about INIT, UPDATE and FINAL (spec/40_init_update_final.md). -/

namespace Sys2Proof.Proofs

open Sys2Proof.Machine

/-- Settles O19: the valid bytes, a and b are one string, cut into blocks once or in two goes. -/
theorem chunkingLaw : Obligations.ChunkingLaw := by
  unfold Obligations.ChunkingLaw
  refine ⟨fun c a b e hinv hactive => updateEngine_updateEngine c a b hinv hactive,
    fun a b s hinv hactive => ?machine⟩
  case machine =>
    have hnext : ∀ {u : State}, u.engine.active = true → ∀ data : List Byte,
        exec (.update data) u = .next (u.setEngine (updateEngine Config.sipHash24 data u.engine)) :=
      fun hu data => exec_beat_active rfl hu
    refine ⟨_, _, hnext hactive a, hnext ((updateEngine_active _ a _).trans hactive) b, ?_⟩
    rw [hnext hactive, State.setEngine_setEngine, State.setEngine_engine, updateEngine_updateEngine _ a b hinv hactive]

/-- Settles O16: no data, data that fits below index 8, data that fills BUF exactly, and data that spills over. -/
theorem updateFourCases : Obligations.UpdateFourCases := by
  unfold Obligations.UpdateFourCases
  intro i data s hdata hlen hactive hinv e used n old
  have hold : old = e.validBytes := (Engine.validBytes_eq_map e).symm
  have hmax : used + n < 16 := by omega
  have hnext := exec_beat_active hdata hactive
  have hbytes := updateEngine_bytes Config.sipHash24 data hinv
  have hactive' := (updateEngine_active Config.sipHash24 data e).trans hactive
  rw [hold]
  refine ⟨fun hnone => ?none,
    fun ⟨_, hfits⟩ => ⟨_, hnext, updateEngine_v_short _ hfits, fun j hj => updateEngine_read_written _ hfits hj,
      fun a ha => updateEngine_read_unwritten _ hfits ha, hbytes, hactive', rfl, rfl⟩,
    fun hfull => ⟨_, hnext, updateEngine_v_fill _ hinv hfull, fun block hblock => ?direct,
      updateEngine_read_fill _ hinv hfull, hbytes, hactive', rfl, rfl⟩,
    fun hspill => ⟨_, hnext, updateEngine_v_block _ hinv hspill.le hmax,
      fun j hj => updateEngine_read_spilled _ hinv hspill hmax hj,
      fun a ha => updateEngine_read_above_spilled _ hinv hspill hmax ha, hbytes, hactive', rfl, rfl⟩⟩
  case none =>
    obtain rfl := List.length_eq_zero_iff.mp hnone
    rw [hnext, updateEngine_nil, State.setEngine_self]
  case direct =>
    subst hblock
    obtain rfl : bytesLE block = data := Option.some.inj hdata
    exact updateEngine_v_full_beat _ block hinv hfull

/-- Settles O17: this hardware is the instance RC = 2 of the statement at every round count, and the two counts of BYTES
follow from its sum, since 8 divides 2^64. -/
theorem updateAbsorbsWholeBlocks : Obligations.UpdateAbsorbsWholeBlocks := by
  unfold Obligations.UpdateAbsorbsWholeBlocks
  intro i data s hdata hactive hinv e used all blocks
  have hcommands := commandsAtEveryRoundCount
  unfold Obligations.CommandsAtEveryRoundCount at hcommands
  obtain ⟨-, -, hupdate, -, -⟩ := hcommands Config.sipHash24
  obtain ⟨t, hnext, hv, hbuf, hbytes, hrest⟩ := hupdate i data s hdata hactive hinv
  have hcount : t.engine.bytes.toNat = (e.bytes.toNat + data.length) % 2 ^ 64 := by
    rw [hbytes, BitVec.toNat_add, BitVec.toNat_ofNat, Nat.add_mod_mod]
  exact ⟨t, by rw [exec_eq_execAt, hnext], hv, hbuf, hcount, by rw [hcount]; omega, hrest⟩

/-- Settles O18: BUF stays canonical, so it lists no address from 8 up, and data that completes no block is written at
`used`. -/
theorem updateFrame : Obligations.UpdateFrame := by
  unfold Obligations.UpdateFrame
  intro i data s t hdata hnext used
  obtain rfl := exec_beat_next hdata hnext
  refine ⟨updateEngine_active _ data _, rfl, rfl, fun a ha hwf => ?outside,
    fun hfits => ⟨updateEngine_v_short _ hfits, fun a ha => updateEngine_read_unwritten _ hfits ha⟩⟩
  case outside =>
    rw [State.setEngine_engine, Memory.read_ge (updateEngine_wf _ data hwf) ha, Memory.read_ge hwf ha]

/-- Settles O21: this hardware is the instance RC = 2, RF = 4 of the statement at every round count. -/
theorem finalAnswersAndWipes : Obligations.FinalAnswersAndWipes := by
  unfold Obligations.FinalAnswersAndWipes
  have hcommands := commandsAtEveryRoundCount
  unfold Obligations.CommandsAtEveryRoundCount at hcommands
  obtain ⟨-, -, -, hfinal, -⟩ := hcommands Config.sipHash24
  intro s hactive
  rw [exec_eq_execAt]
  exact hfinal s hactive

/-- Settles O22: the valid bytes have the low places, the padding counts nothing, and the length byte stands in lane
7. -/
theorem finalBlockClosedForm : Obligations.FinalBlockClosedForm := by
  unfold Obligations.FinalBlockClosedForm
  intro e
  rw [finalBlock_toNat, leNat_validBytes, Engine.used]

/-- Settles O12: the record INIT leaves is `initEngine`. -/
theorem initLoadsKeyedWords : Obligations.InitLoadsKeyedWords := by
  unfold Obligations.InitLoadsKeyedWords
  exact fun k0 k1 s => ⟨s.setEngine (initEngine k0 k1), exec_init k0 k1 s, rfl, rfl, Memory.read_cleared, rfl, rfl, rfl,
    rfl⟩

/-- Settles O13: after its first word each run goes on from the record INIT leaves. -/
theorem initForgetsTheOldRecord : Obligations.InitForgetsTheOldRecord := by
  unfold Obligations.InitForgetsTheOldRecord
  intro k0 k1 evs s e e'
  simp only [runEvents_cons, acceptEvent_command, acceptWord_ok (decode_encode (i := .init k0 k1) rfl), exec_init,
    State.setEngine_setEngine]

/-- Settles O15: the general UPDATE of no bytes leaves the record. -/
theorem emptyUpdateIsNoOp : Obligations.EmptyUpdateIsNoOp := by
  unfold Obligations.EmptyUpdateIsNoOp
  refine ⟨fun s hactive => ?_, fun s hidle => exec_beat_idle rfl hidle⟩
  rw [exec_beat_active rfl hactive, updateEngine_nil, State.setEngine_self]

/-- Settles O23: INIT asks for no phase, and both UPDATE forms and FINAL for ACTIVE = 1. -/
theorem legalityTable : Obligations.LegalityTable := by
  unfold Obligations.LegalityTable
  refine ⟨fun k0 k1 s => ⟨_, exec_init k0 k1 s⟩,
    fun i data s hdata => ⟨fun hactive => ⟨_, exec_beat_active hdata hactive⟩, exec_beat_idle hdata⟩,
    fun s => ?final⟩
  case final =>
    rw [exec_eq_execAt]
    exact ⟨fun hactive => ⟨_, execAt_final_active _ hactive⟩, execAt_final_idle _⟩

end Sys2Proof.Proofs
end

section
/-! The round primitives as functions of the state words: rotation bit by bit, the rounds as a permutation, the fold
(spec/41_round_primitives.md rules R63, R64, R67, R71, R73, R74). -/

namespace Sys2Proof.Machine

theorem getLsbD_rotl (a : Word) {n i : Nat} (hn : n < 64) (hi : i < 64) :
    (rotl a n).getLsbD ((i + n) % 64) = a.getLsbD i := by
  rw [rotl_eq_rotateLeft a hn, BitVec.getLsbD_rotateLeft, Nat.mod_eq_of_lt hn]
  by_cases hwrap : i + n < 64
  · rw [Nat.mod_eq_of_lt hwrap, decide_eq_false (by omega), cond_false, Nat.add_sub_cancel, decide_eq_true hwrap,
      Bool.true_and]
  · rw [show (i + n) % 64 = i + n - 64 by omega, decide_eq_true (by omega), cond_true]
    congr 1
    omega

theorem rotl_halves_swapped (a : Word) :
    BitVec.extractLsb' 0 32 (rotl a 32) = BitVec.extractLsb' 32 32 a ∧
      BitVec.extractLsb' 32 32 (rotl a 32) = BitVec.extractLsb' 0 32 a := by
  constructor
  · refine BitVec.eq_of_getLsbD_eq fun i hi => ?_
    have hbit := getLsbD_rotl a (n := 32) (i := 32 + i) (by decide) (by omega)
    rw [show (32 + i + 32) % 64 = 0 + i by omega] at hbit
    rw [BitVec.getLsbD_extractLsb', BitVec.getLsbD_extractLsb', hbit]
  · refine BitVec.eq_of_getLsbD_eq fun i hi => ?_
    have hbit := getLsbD_rotl a (n := 32) (i := 0 + i) (by decide) (by omega)
    rw [show (0 + i + 32) % 64 = 32 + i by omega] at hbit
    rw [BitVec.getLsbD_extractLsb', BitVec.getLsbD_extractLsb', hbit]

/-- Each line of SIPROUND is undone by its own inverse: a sum by a difference, a xor by itself, a rotation by the
opposite one. -/
theorem sipunround_sipround (v : StateWords) : sipunround (sipround v) = v := by
  obtain ⟨a, b, c, d⟩ := v
  simp [sipround, sipunround, rotr_rotl]

theorem sipround_sipunround (v : StateWords) : sipround (sipunround v) = v := by
  obtain ⟨a, b, c, d⟩ := v
  simp [sipround, sipunround, rotl_rotr]

theorem sipround_bijective : Function.Bijective sipround :=
  Function.bijective_iff_has_inverse.mpr ⟨sipunround, sipunround_sipround, sipround_sipunround⟩

/-- SIPROUNDS(n) is the n-th iterate of SIPROUND. -/
theorem siprounds_eq_iterate (n : Nat) : siprounds n = sipround^[n] := by
  induction n with
  | zero => rfl
  | succ n ih =>
    funext v
    rw [siprounds_succ, ih, Function.iterate_succ_apply]

theorem siprounds_bijective (n : Nat) : Function.Bijective (siprounds n) := by
  rw [siprounds_eq_iterate]
  exact sipround_bijective.iterate n

theorem xorV3_bijective (m : Word) : Function.Bijective (xorV3 m) := Function.Involutive.bijective (xorV3_xorV3 m)

theorem xorV0_bijective (m : Word) : Function.Bijective (xorV0 m) := Function.Involutive.bijective (xorV0_xorV0 m)

theorem compress_eq_comp (rc : Nat) (m : Word) : (fun v => compress rc v m) = xorV0 m ∘ siprounds rc ∘ xorV3 m := rfl

theorem sipround_zero : sipround ⟨0, 0, 0, 0⟩ = ⟨0, 0, 0, 0⟩ := by decide

theorem siprounds_zero_words (n : Nat) : siprounds n ⟨0, 0, 0, 0⟩ = ⟨0, 0, 0, 0⟩ := by
  rw [siprounds_eq_iterate]
  exact Function.iterate_fixed sipround_zero n

theorem compress_zero_words (rc : Nat) : compress rc ⟨0, 0, 0, 0⟩ 0 = ⟨0, 0, 0, 0⟩ := by
  have hxor3 : xorV3 0 ⟨0, 0, 0, 0⟩ = ⟨0, 0, 0, 0⟩ := rfl
  rw [compress, hxor3, siprounds_zero_words]
  rfl

end Sys2Proof.Machine
end

section
/-! Commands whose words have one header: they differ in key or data only, perform operations of one shape and answer
alike (spec/41_round_primitives.md rule R72, spec/70_reset_and_hazards.md rule R102). -/

namespace Sys2Proof.Machine

/-- Two commands of one kind: two INITs, two UPDATEs with as many data bytes, or two FINALs. -/
inductive SameKind : Instr → Instr → Prop
  | init (k0 k1 k0' k1' : Word) : SameKind (.init k0 k1) (.init k0' k1')
  | beat {i i' : Instr} {data data' : List Byte} (h : beatOf i = some data) (h' : beatOf i' = some data')
      (hlen : data.length = data'.length) : SameKind i i'
  | final : SameKind .final .final

/-- Words with one header are both reserved, in one class, or both defined, as commands of one kind. -/
theorem decode_of_header_eq {w w' : CmdWord} (h : CmdWord.header w = CmdWord.header w') :
    (∃ why, decode w = .error why ∧ decode w' = .error why) ∨
      ∃ i i', decode w = .ok i ∧ decode w' = .ok i' ∧ SameKind i i' := by
  obtain ⟨hop', hcount'⟩ := fields_of_header h
  rcases definedFields_or_covered (CmdWord.op w) (CmdWord.count w).toNat with
    (⟨hop, hn⟩ | ⟨hop, hn⟩ | ⟨hop, hn⟩) | ⟨why, hwhy⟩
  · exact .inr ⟨_, _, decode_init hop hn, decode_init (hop' ▸ hop) (hcount' ▸ hn), .init _ _ _ _⟩
  · obtain ⟨i, hi, hdata⟩ := decode_beat hop hn
    obtain ⟨i', hi', hdata'⟩ := decode_beat (w := w') (hop' ▸ hop) (hcount' ▸ hn)
    exact .inr ⟨i, i', hi, hi', .beat hdata hdata' (by rw [lanes_length, lanes_length, hcount'])⟩
  · exact .inr ⟨_, _, decode_final hop hn, decode_final (hop' ▸ hop) (hcount' ▸ hn), .final⟩
  · exact .inl ⟨why, decode_error_of_covers hwhy, decode_error_of_covers (hop' ▸ hcount' ▸ hwhy)⟩

/-- The indices written are a, a + 1, ..., whatever the bytes are. -/
theorem shape_writeOps (a : Nat) (bs : List Byte) :
    (writeOps a bs).map MicroOp.shape = (List.range' a bs.length).map MicroShape.writeBuf := by
  induction bs generalizing a with
  | nil => rfl
  | cons b bs ih => rw [writeOps, List.map_cons, ih, List.length_cons, List.range'_succ, List.map_cons]; rfl

/-- Every block from the input is absorbed by the same operations. -/
theorem shape_blockOps (rc n : Nat) (data : List Byte) :
    (blockOps rc n data).map MicroOp.shape
      = (List.range n).flatMap (fun _ => .blockFromInput :: (compressOps rc).map MicroOp.shape) := by
  rw [blockOps, List.map_flatMap]
  rfl

theorem shape_inputOps (c : Config) {data data' : List Byte} (hlen : data.length = data'.length) :
    (inputOps c data).map MicroOp.shape = (inputOps c data').map MicroOp.shape := by
  simp only [inputOps_eq, List.map_append, shape_blockOps, shape_writeOps, List.length_drop, hlen]

/-- Which case of rule R56 applies, and what is written in it, is settled by `used` and the number of bytes. -/
theorem shape_updateOps (c : Config) (used : Nat) {data data' : List Byte} (hlen : data.length = data'.length) :
    (updateOps c used data).map MicroOp.shape = (updateOps c used data').map MicroOp.shape := by
  have hrest : (data.drop (8 - used)).length = (data'.drop (8 - used)).length := by
    rw [List.length_drop, List.length_drop, hlen]
  unfold updateOps
  rw [hlen]
  split_ifs with hempty hused hshort
  · rfl
  · simp only [List.map_append, shape_writeOps, hlen]
  · simp only [List.map_append, List.map_cons, shape_writeOps, List.length_take, hlen, shape_inputOps c hrest]
  · simp only [List.map_append, shape_inputOps c hlen]

theorem SameKind.shape_microOps (c : Config) (used : Nat) {i i' : Instr} (h : SameKind i i') :
    (microOps c used i).map MicroOp.shape = (microOps c used i').map MicroOp.shape := by
  cases h with
  | init k0 k1 k0' k1' => rfl
  | beat hdata hdata' hlen => rw [microOps_beat c used hdata, microOps_beat c used hdata', shape_updateOps c used hlen]
  | final => rfl

/-- Two outcomes, from s and from t, that differ in nothing but data: both refused for one reason, or both answered with
one ACTIVE and as many new responses. -/
inductive AnswersAlike (s t : State) :
    Host.Outcome State Fault Refusal → Host.Outcome State Fault Refusal → Prop
  | next {s' t' : State} {ds ds' : List Word} (hactive : s'.engine.active = t'.engine.active)
      (hs : s'.responses = s.responses ++ ds) (ht : t'.responses = t.responses ++ ds') (hlen : ds.length = ds'.length) :
      AnswersAlike s t (.next s') (.next t')
  | refused (why : Refusal) : AnswersAlike s t (.refused why) (.refused why)

section
variable {s t : State}

/-- Both states go on without a response. -/
theorem AnswersAlike.silent {s' t' : State} (hactive : s'.engine.active = t'.engine.active)
    (hs : s'.responses = s.responses) (ht : t'.responses = t.responses) : AnswersAlike s t (.next s') (.next t') :=
  .next (ds := []) (ds' := []) hactive (by rw [hs, List.append_nil]) (by rw [ht, List.append_nil]) rfl

/-- Both states have answered a FINAL, each with its own digest. -/
theorem AnswersAlike.answered (d d' : Word) : AnswersAlike s t (.next (s.emit d).wipe) (.next (t.emit d').wipe) :=
  .next (ds := [d]) (ds' := [d']) (by rw [State.wipe_engine, State.wipe_engine])
    (by rw [State.wipe_responses, State.emit_responses]) (by rw [State.wipe_responses, State.emit_responses])
    (by rw [List.length_singleton, List.length_singleton])

/-- What is alike from two later states is alike from the two before them. -/
theorem AnswersAlike.of_later {s' t' : State} {ds ds' : List Word} (hs : s'.responses = s.responses ++ ds)
    (ht : t'.responses = t.responses ++ ds') (hlen : ds.length = ds'.length)
    {o o' : Host.Outcome State Fault Refusal} (h : AnswersAlike s' t' o o') : AnswersAlike s t o o' := by
  cases h with
  | refused why => exact .refused why
  | next hactive' hs' ht' hlen' =>
    exact .next hactive' (by rw [hs', hs, List.append_assoc]) (by rw [ht', ht, List.append_assoc])
      (by rw [List.length_append, List.length_append, hlen, hlen'])

theorem AnswersAlike.andThen {o o' : Host.Outcome State Fault Refusal}
    {k k' : State → Host.Outcome State Fault Refusal} (h : AnswersAlike s t o o')
    (hk : ∀ s' t' : State, s'.engine.active = t'.engine.active → AnswersAlike s' t' (k s') (k' t')) :
    AnswersAlike s t (Machine.andThen o k) (Machine.andThen o' k') := by
  cases h with
  | refused why => exact .refused why
  | next hactive hs ht hlen =>
    rw [andThen_next, andThen_next]
    exact (hk _ _ hactive).of_later hs ht hlen

/-- Commands of one kind answer alike wherever ACTIVE is the same. -/
theorem SameKind.exec_alike {i i' : Instr} (h : SameKind i i') (hactive : s.engine.active = t.engine.active) :
    AnswersAlike s t (exec i s) (exec i' t) := by
  cases h with
  | init k0 k1 k0' k1' => exact .silent rfl rfl rfl
  | beat hdata hdata' _ =>
    cases hs : s.engine.active with
    | true =>
      rw [exec_beat_active hdata hs, exec_beat_active hdata' (hactive ▸ hs)]
      exact .silent (by simpa using hactive) rfl rfl
    | false =>
      rw [exec_beat_idle hdata hs, exec_beat_idle hdata' (hactive ▸ hs)]
      exact .refused _
  | final =>
    rw [exec_final, exec_final]
    cases hs : s.engine.active with
    | true =>
      rw [whenActive_next hs, whenActive_next (hactive ▸ hs)]
      exact .answered _ _
    | false =>
      rw [whenActive_refused hs, whenActive_refused (hactive ▸ hs)]
      exact .refused _

theorem SameHeader.acceptEvent_alike {a b : PortEvent} (h : SameHeader a b)
    (hactive : s.engine.active = t.engine.active) : AnswersAlike s t (acceptEvent a s) (acceptEvent b t) := by
  match a, b, h with
  | .reset _, .reset _, _ => exact .silent rfl rfl rfl
  | .command w, .command w', h =>
    rw [acceptEvent_command, acceptEvent_command]
    rcases decode_of_header_eq h with ⟨why, hw, hw'⟩ | ⟨i, i', hw, hw', hkind⟩
    · rw [acceptWord_error hw, acceptWord_error hw']
      exact .refused _
    · rw [acceptWord_ok hw, acceptWord_ok hw']
      exact hkind.exec_alike hactive

theorem runEvents_alike {as bs : List PortEvent} (h : List.Forall₂ SameHeader as bs)
    (hactive : s.engine.active = t.engine.active) : AnswersAlike s t (runEvents as s) (runEvents bs t) := by
  induction h generalizing s t with
  | nil => exact .silent hactive rfl rfl
  | cons hab _ ih =>
    rw [runEvents_cons, runEvents_cons]
    exact (hab.acceptEvent_alike hactive).andThen fun s' t' => ih

theorem AnswersAlike.refused_iff {o o' : Host.Outcome State Fault Refusal} (h : AnswersAlike s t o o')
    (why : Refusal) : o = .refused why ↔ o' = .refused why := by
  cases h with
  | next => simp
  | refused => rfl

end

end Sys2Proof.Machine
end

section
/-! The statements about the round primitives and the operations of a command (spec/41_round_primitives.md). -/

namespace Sys2Proof.Proofs

open Sys2Proof.Machine

/-- Settles O47: this hardware is the instance RC = 2, RF = 4 of the refinement at every round count. -/
theorem microOpsRefineExec : Obligations.MicroOpsRefineExec := by
  unfold Obligations.MicroOpsRefineExec
  intro i s block hlegal p
  rw [exec_eq_execAt]
  exact execAt_microOps Config.sipHash24 block hlegal

/-- Settles O31, by the inverse on both sides. -/
theorem siproundIsAPermutation : Obligations.SiproundIsAPermutation := by
  unfold Obligations.SiproundIsAPermutation
  exact ⟨sipround_bijective, sipunround_sipround, sipround_sipunround⟩

/-- Settles O32, since SIPROUNDS(n) is an iterate. -/
theorem siproundsCompose : Obligations.SiproundsCompose := by
  unfold Obligations.SiproundsCompose
  refine ⟨siprounds_zero, fun n v => ?_, fun a b v => ?_⟩
  · rw [siprounds_eq_iterate, siprounds_eq_iterate, Function.iterate_succ_apply']
  · rw [siprounds_eq_iterate, siprounds_eq_iterate, siprounds_eq_iterate, Nat.add_comm, Function.iterate_add_apply]

/-- Settles O34: COMPRESS is a xor, the rounds and a xor, each of them a permutation. -/
theorem compressIsAPermutation : Obligations.CompressIsAPermutation := by
  unfold Obligations.CompressIsAPermutation
  intro rc m
  rw [compress_eq_comp]
  exact (xorV0_bijective m).comp ((siprounds_bijective rc).comp (xorV3_bijective m))

/-- Settles O35: one round fixes the zero words, so every number of rounds does. -/
theorem zeroWordsAreAFixedPoint : Obligations.ZeroWordsAreAFixedPoint := by
  unfold Obligations.ZeroWordsAreAFixedPoint
  exact ⟨sipround_zero, siprounds_zero_words, compress_zero_words⟩

/-- Settles O36, bit by bit. -/
theorem rotationMovesEveryBit : Obligations.RotationMovesEveryBit := by
  unfold Obligations.RotationMovesEveryBit
  exact ⟨fun a n i _ hn hi => getLsbD_rotl a hn hi, rotl_halves_swapped, fun a n hpos hn => rotr_rotl a hpos hn⟩

/-- Settles O45, by induction on the two lists of events: every pair of events answers alike. -/
theorem refusalsIgnoreTheData : Obligations.RefusalsIgnoreTheData := by
  unfold Obligations.RefusalsIgnoreTheData
  intro as bs s t hheaders hactive
  have halike := runEvents_alike hheaders hactive
  refine ⟨halike.refused_iff, fun s' hrun => ?next⟩
  case next =>
    rw [hrun] at halike
    cases h : runEvents bs t with
    | next t' =>
      rw [h] at halike
      obtain ⟨hactive', hs, ht, hlen⟩ := halike
      exact ⟨t', rfl, hactive', _, _, hs, ht, hlen⟩
    | fault why => cases why
    | refused why => rw [h] at halike; cases halike

/-- Settles O48: words with one header are commands of one kind, and the operations look at the number of bytes only. -/
theorem operationShapeIgnoresTheData : Obligations.OperationShapeIgnoresTheData := by
  unfold Obligations.OperationShapeIgnoresTheData
  intro c used w w' i i' hi hi' hheader
  rcases decode_of_header_eq hheader with ⟨why, hwhy, -⟩ | ⟨j, j', hj, hj', hkind⟩
  · exact absurd (hi.symm.trans hwhy) (by simp)
  · obtain rfl : i = j := Except.ok.inj (hi.symm.trans hj)
    obtain rfl : i' = j' := Except.ok.inj (hi'.symm.trans hj')
    exact hkind.shape_microOps c used

/-- Settles O30: each rotation is the library's. -/
theorem siproundStraightLine : Obligations.SiproundStraightLine := by
  unfold Obligations.SiproundStraightLine
  intro a b c d
  simp only [sipround, rotl_eq_rotateLeft, Nat.reduceLT]

/-- Settles O33: the definition of COMPRESS, at every round count and at RC = 0. -/
theorem compressIsXorRoundsXor : Obligations.CompressIsXorRoundsXor := by
  unfold Obligations.CompressIsXorRoundsXor
  exact ⟨fun rc v m => rfl, fun v m => rfl⟩

/-- Settles O37: xor is associative and commutative. -/
theorem foldIsTheXorOfTheWords : Obligations.FoldIsTheXorOfTheWords := by
  unfold Obligations.FoldIsTheXorOfTheWords
  refine ⟨fun v => ⟨rfl, ?sequence⟩, fun v => ?swaps, rfl⟩
  case sequence => simp only [fold, BitVec.xor_assoc]
  case swaps =>
    simp only [fold]
    refine ⟨?_, ?_, ?_, ?_, ?_, ?_⟩ <;> ac_rfl

end Sys2Proof.Proofs
end

section
/-! UPDATEs folded over a record, the mid-stream record field by field, and UPDATE* of pieces in a row
(spec/42_oneshot.md rules R77, R79). -/

namespace Sys2Proof.Machine

/-- UPDATEs of beats in order are one UPDATE of the string they make up. -/
theorem foldl_updateEngine (c : Config) (beats : List (List Byte)) {e : Engine} (h : e.Inv) (ha : e.active = true) :
    beats.foldl (fun e beat => updateEngine c beat e) e = updateEngine c beats.flatten e := by
  induction beats generalizing e with
  | nil => rfl
  | cons beat beats ih =>
    rw [List.foldl_cons, ih (updateEngine_inv c beat h ha) (by rw [updateEngine_active, ha]),
      updateEngine_updateEngine c _ _ h ha, List.flatten_cons]

/-- The record's own operations leave the mid-stream record of what they were given. -/
theorem foldl_updateEngine_initEngine (c : Config) (k0 k1 : Word) (beats : List (List Byte)) :
    beats.foldl (fun e beat => updateEngine c beat e) (initEngine k0 k1) = streamEngine c k0 k1 beats.flatten := by
  rw [foldl_updateEngine c beats (initEngine_inv k0 k1) rfl, updateEngine_initEngine]

/-- The whole blocks of the string, absorbed in order into the keyed words. -/
theorem streamEngine_v (c : Config) (k0 k1 : Word) (s : List Byte) :
    (streamEngine c k0 k1 s).v =
      ((List.range (s.length / 8)).map (fun j => le64 ((s.drop (8 * j)).take 8))).foldl (compress c.rc)
        (keyedWords k0 k1) := by
  rw [streamEngine, absorbedWords_eq_absorbBlocks c k0 k1 le_rfl, absorbBlocks_eq_foldl]

/-- BUF holds what is left of the string after its whole blocks, with zeros above. -/
theorem streamEngine_read (c : Config) (k0 k1 : Word) (s : List Byte) (a : Nat) :
    (streamEngine c k0 k1 s).buf.read a = if a < s.length % 8 then s.getD (8 * (s.length / 8) + a) 0 else 0 := by
  rw [← updateEngine_initEngine, updateEngine_read c s (initEngine_inv k0 k1), initEngine_used,
    initEngine_validBytes, List.nil_append, Nat.zero_add]

theorem streamEngine_bytes_toNat (c : Config) (k0 k1 : Word) (s : List Byte) :
    (streamEngine c k0 k1 s).bytes.toNat = s.length % 2 ^ 64 :=
  BitVec.toNat_ofNat _ _

/-- UPDATE* of one piece after another carries the beats of one piece after another. -/
theorem flatMap_updateStar_beats (pieces : List (List Byte)) :
    (pieces.flatMap updateStar).map beatOf = (pieces.flatMap beatsOf).map some := by
  simp only [List.map_flatMap, updateStar_beats]

theorem flatMap_beatsOf_flatten (pieces : List (List Byte)) : (pieces.flatMap beatsOf).flatten = pieces.flatten := by
  induction pieces with
  | nil => rfl
  | cons piece pieces ih => rw [List.flatMap_cons, List.flatten_append, beatsOf_flatten, ih, List.flatten_cons]

end Sys2Proof.Machine
end

section
/-! A run of this hardware is a run of the engine at its round counts (spec/00_scope.md rules R6, R7). -/

namespace Sys2Proof.Machine

theorem core_run_eq (k : Nat) (s : State) : Sys2Proof.core.run k s = (coreAt Config.sipHash24).run k s := by
  induction k generalizing s with
  | zero => rfl
  | succ k ih => rw [core_run_succ, coreAt_run_succ, step_eq_stepAt, funext ih]

end Sys2Proof.Machine
end

section
/-! The statements about a whole message: the mid-stream record, the digest, ONESHOT and streaming
(spec/42_oneshot.md). -/

namespace Sys2Proof.Proofs

open Sys2Proof.Machine

/-- Settles O40: any cut of s leaves `streamEngine` of s, whose fields are read off one UPDATE of s. -/
theorem midStreamRecord : Obligations.MidStreamRecord := by
  unfold Obligations.MidStreamRecord
  refine ⟨foldl_updateEngine_initEngine, ?commands⟩
  case commands =>
    intro k0 k1 is beats m hbeats s w r
    have hrun : execAll (.init k0 k1 :: is) m = .next (m.setEngine (streamEngine Config.sipHash24 k0 k1 s)) := by
      rw [execAll_eq_execAllAt, execAllAt_stream _ k0 k1 hbeats]
    have hbytes := streamEngine_bytes_toNat Config.sipHash24 k0 k1 s
    exact ⟨_, hrun, streamEngine_v Config.sipHash24 k0 k1 s, streamEngine_read Config.sipHash24 k0 k1 s,
      hbytes, fun hlt => hbytes.trans (Nat.mod_eq_of_lt hlt), rfl, rfl, rfl, rfl⟩

/-- Settles O41: on the record the digest is that of the mid-stream record, and this hardware's steps are the instance
RC = 2, RF = 4 of the statement at every round count. -/
theorem digestIsSipHashOfTheMessage : Obligations.DigestIsSipHashOfTheMessage := by
  unfold Obligations.DigestIsSipHashOfTheMessage
  refine ⟨fun c k0 k1 beats => ?record, ?steps⟩
  case record => rw [foldl_updateEngine_initEngine, finalDigest_streamEngine]
  case steps =>
    have hdigest := digestAtEveryRoundCount
    unfold Obligations.DigestAtEveryRoundCount at hdigest
    obtain ⟨hsteps, -, -⟩ := hdigest
    simp only [core_run_eq]
    exact hsteps Config.sipHash24

/-- Settles O42: the beats of UPDATE* make up the message again. -/
theorem oneshotReturnsTheDigest : Obligations.OneshotReturnsTheDigest := by
  unfold Obligations.OneshotReturnsTheDigest
  exact fun k0 k1 s m => ⟨rfl, by rw [execAll_eq_execAllAt, execAllAt_oneshot]⟩

/-- Settles O43: both sides answer SipHash of the pieces put together, whose beats are one cut of it. -/
theorem streamingEquivalence : Obligations.StreamingEquivalence := by
  unfold Obligations.StreamingEquivalence
  intro k0 k1 pieces m
  have hstream := execAllAt_message Config.sipHash24 k0 k1 (flatMap_updateStar_beats pieces) m
  have honeshot := execAllAt_oneshot Config.sipHash24 k0 k1 pieces.flatten m
  rw [flatMap_beatsOf_flatten] at hstream
  rw [execAll_eq_execAllAt]
  exact ⟨sipHash Config.sipHash24 k0 k1 pieces.flatten, ⟨_, hstream, rfl⟩, ⟨_, honeshot, rfl⟩⟩

end Sys2Proof.Proofs
end

section
/-! The statement about exceptions (spec/60_exceptions.md rule R81). -/

namespace Sys2Proof.Machine

/-- The type of faults is empty, so no outcome is a fault. -/
theorem outcome_ne_fault (o : Host.Outcome State Fault Refusal) (why : Fault) : o ≠ .fault why :=
  nomatch why

/-- INIT is defined in every phase, and a legal UPDATE or FINAL finds ACTIVE = 1. -/
theorem exec_of_legal {i : Instr} {s : State} (h : Legal i s) : ∃ t, exec i s = .next t := by
  rcases instr_cases i with ⟨k0, k1, rfl⟩ | ⟨data, hdata⟩ | rfl
  · exact ⟨_, exec_init k0 k1 s⟩
  · exact ⟨_, exec_beat_active hdata (active_of_legal_beat hdata h)⟩
  · exact ⟨_, (exec_final s).trans (whenActive_next h)⟩

end Sys2Proof.Machine

namespace Sys2Proof.Proofs

open Sys2Proof.Machine

/-- Settles O24: faults are ruled out by their empty type, and a legal command's phase is the one in which it runs. -/
theorem nothingIsRaised : Obligations.NothingIsRaised := by
  unfold Obligations.NothingIsRaised
  exact ⟨fun s => outcome_ne_fault (step s), fun i s => outcome_ne_fault (exec i s), fun _ _ => exec_of_legal⟩

end Sys2Proof.Proofs
end

section
/-! A step with a command word at the port, by what the word decodes to (spec/70_reset_and_hazards.md rule R98). -/

namespace Sys2Proof.Machine

variable {s : State} {w : CmdWord} {rest : List PortEvent}

theorem step_of_decode_ok {i : Instr} (hport : s.port = .command w :: rest) (hdecode : decode w = .ok i) :
    step s = exec i { s with port := rest } := by
  rw [step_cons hport, acceptEvent_command, acceptWord_ok hdecode]

theorem step_of_decode_error {why : Reserved} (hport : s.port = .command w :: rest) (hdecode : decode w = .error why) :
    step s = .refused (.reservedWord why) := by
  rw [step_cons hport, acceptEvent_command, acceptWord_error hdecode]

theorem exec_final_active (h : s.engine.active = true) :
    exec .final s = .next (s.emit (finalDigest Config.sipHash24 s.engine)).wipe :=
  (exec_final s).trans (whenActive_next h)

theorem exec_final_idle (h : s.engine.active = false) : exec .final s = .refused .noComputation :=
  (exec_final s).trans (whenActive_refused h)

end Sys2Proof.Machine
end

section
/-! What the host owes, one event at a time, and the responses of a run (spec/70_reset_and_hazards.md rules R97,
R106). -/

namespace Sys2Proof.Machine

section

variable {w : CmdWord} (active : Bool) (evs : List PortEvent)

@[simp] theorem hostKeepsOrder_nil : hostKeepsOrder active [] = true := by simp [hostKeepsOrder]

@[simp] theorem hostKeepsOrder_reset (beside : Option CmdWord) :
    hostKeepsOrder active (.reset beside :: evs) = hostKeepsOrder false evs := by
  simp [hostKeepsOrder]

theorem hostKeepsOrder_init {k0 k1 : Word} (h : decode w = .ok (.init k0 k1)) :
    hostKeepsOrder active (.command w :: evs) = hostKeepsOrder true evs := by
  simp [hostKeepsOrder, h]

theorem hostKeepsOrder_beat {i : Instr} {data : List Byte} (h : decode w = .ok i) (hdata : beatOf i = some data) :
    hostKeepsOrder active (.command w :: evs) = (active && hostKeepsOrder active evs) := by
  cases i with
  | init k0 k1 => simp [beatOf] at hdata
  | update bytes => simp [hostKeepsOrder, h]
  | updateFull block => simp [hostKeepsOrder, h]
  | final => simp [beatOf] at hdata

theorem hostKeepsOrder_final (h : decode w = .ok .final) :
    hostKeepsOrder active (.command w :: evs) = (active && hostKeepsOrder false evs) := by
  simp [hostKeepsOrder, h]

theorem hostKeepsOrder_error {why : Reserved} (h : decode w = .error why) :
    hostKeepsOrder active (.command w :: evs) = false := by
  simp [hostKeepsOrder, h]

end

/-- An event is answered, and the order is then kept by what follows it as read from the new ACTIVE; or it is refused,
and no order that begins with it is kept. -/
theorem acceptEvent_hostKeepsOrder (ev : PortEvent) (s : State) :
    (∃ t, acceptEvent ev s = .next t ∧
      ∀ evs, hostKeepsOrder s.engine.active (ev :: evs) = hostKeepsOrder t.engine.active evs) ∨
    (∃ why, acceptEvent ev s = .refused why ∧ ∀ evs, hostKeepsOrder s.engine.active (ev :: evs) = false) := by
  cases ev with
  | reset beside => exact .inl ⟨s.applyReset, rfl, fun evs => hostKeepsOrder_reset _ evs beside⟩
  | command w =>
    rw [acceptEvent_command]
    cases hdecode : decode w with
    | error why => exact .inr ⟨_, acceptWord_error hdecode s, fun evs => hostKeepsOrder_error _ evs hdecode⟩
    | ok i =>
      rw [acceptWord_ok hdecode]
      rcases instr_cases i with ⟨k0, k1, rfl⟩ | ⟨data, hdata⟩ | rfl
      · exact .inl ⟨_, exec_init k0 k1 s, fun evs => hostKeepsOrder_init _ evs hdecode⟩
      · cases hactive : s.engine.active with
        | true =>
          refine .inl ⟨_, exec_beat_active hdata hactive, fun evs => ?_⟩
          rw [hostKeepsOrder_beat _ evs hdecode hdata, Bool.true_and, State.setEngine_engine, updateEngine_active,
            hactive]
        | false =>
          exact .inr ⟨_, exec_beat_idle hdata hactive, fun evs => hostKeepsOrder_beat _ evs hdecode hdata⟩
      · cases hactive : s.engine.active with
        | true => exact .inl ⟨_, exec_final_active hactive, fun evs => hostKeepsOrder_final _ evs hdecode⟩
        | false => exact .inr ⟨_, exec_final_idle hactive, fun evs => hostKeepsOrder_final _ evs hdecode⟩

theorem cleanRun_nil (s : State) : CleanRun [] s := ⟨s, runEvents_nil s⟩

theorem cleanRun_cons {ev : PortEvent} {evs : List PortEvent} {s : State} :
    CleanRun (ev :: evs) s ↔ ∃ t, acceptEvent ev s = .next t ∧ CleanRun evs t := by
  simp only [CleanRun, runEvents_cons, andThen_eq_next]
  exact ⟨fun ⟨u, t, ht, hu⟩ => ⟨t, ht, u, hu⟩, fun ⟨t, ht, u, hu⟩ => ⟨u, t, ht, hu⟩⟩

theorem cleanRun_iff_hostKeepsOrder (evs : List PortEvent) (s : State) :
    CleanRun evs s ↔ hostKeepsOrder s.engine.active evs = true := by
  induction evs generalizing s with
  | nil => simp [cleanRun_nil]
  | cons ev evs ih =>
    rw [cleanRun_cons]
    rcases acceptEvent_hostKeepsOrder ev s with ⟨t, hnext, horder⟩ | ⟨why, hrefused, hbroken⟩
    · simp [hnext, horder, ih]
    · simp [hrefused, hbroken]

@[simp] theorem finalCount_nil : finalCount [] = 0 := rfl

@[simp] theorem finalCount_reset (beside : Option CmdWord) (evs : List PortEvent) :
    finalCount (.reset beside :: evs) = finalCount evs := rfl

theorem finalCount_of_decode_ok {w : CmdWord} {i : Instr} (h : decode w = .ok i) (evs : List PortEvent) :
    finalCount (.command w :: evs) = (if i = .final then 1 else 0) + finalCount evs := by
  simp [finalCount, h]

/-- An answered event adds as many responses as it counts for. -/
theorem acceptEvent_responses {ev : PortEvent} {s t : State} (h : acceptEvent ev s = .next t) :
    ∃ ds : List Word, t.responses = s.responses ++ ds ∧ ∀ evs, finalCount (ev :: evs) = ds.length + finalCount evs := by
  cases ev with
  | reset beside =>
    obtain rfl : s.applyReset = t := by simpa using h
    exact ⟨[], by simp, by simp⟩
  | command w =>
    obtain ⟨i, hdecode, hexec⟩ := acceptWord_eq_next.mp h
    refine ⟨_, exec_responses hexec, fun evs => ?_⟩
    rw [finalCount_of_decode_ok hdecode, apply_ite List.length, List.length_singleton, List.length_nil]

theorem runEvents_responses {evs : List PortEvent} {s t : State} (h : runEvents evs s = .next t) :
    ∃ ds : List Word, t.responses = s.responses ++ ds ∧ ds.length = finalCount evs := by
  induction evs generalizing s with
  | nil =>
    obtain rfl : s = t := by simpa using h
    exact ⟨[], by simp, rfl⟩
  | cons ev evs ih =>
    rw [runEvents_cons] at h
    obtain ⟨u, haccept, hrun⟩ := andThen_eq_next.mp h
    obtain ⟨ds, hds, hcount⟩ := acceptEvent_responses haccept
    obtain ⟨ds', hds', hcount'⟩ := ih hrun
    exact ⟨ds ++ ds', by rw [hds', hds, List.append_assoc], by rw [List.length_append, hcount, hcount']⟩

end Sys2Proof.Machine
end

section
/-! The SIPROUNDs in the operations of a command and of a message (spec/70_reset_and_hazards.md rule R107). -/

namespace Sys2Proof.Machine

@[simp] theorem count_round_writeOps (a : Nat) (bs : List Byte) : (writeOps a bs).count .round = 0 := by
  induction bs generalizing a with
  | nil => rfl
  | cons b bs ih => simp [writeOps, ih]

@[simp] theorem count_round_compressOps (rc : Nat) : (compressOps rc).count .round = rc := by
  simp [compressOps]

@[simp] theorem count_round_blockOps (rc n : Nat) (data : List Byte) :
    (blockOps rc n data).count .round = n * rc := by
  induction n with
  | zero => simp [blockOps]
  | succ n ih => simp [blockOps_succ, ih, Nat.succ_mul]

@[simp] theorem count_round_inputOps (c : Config) (data : List Byte) :
    (inputOps c data).count .round = data.length / 8 * c.rc := by
  simp [inputOps_eq]

/-- UPDATE runs RC SIPROUNDs for each block that the valid bytes and the data complete. -/
theorem count_round_updateOps (c : Config) {used : Nat} (hused : used < 8) (data : List Byte) :
    (updateOps c used data).count .round = (used + data.length) / 8 * c.rc := by
  unfold updateOps
  split_ifs with hempty hpos hshort
  · simp [hempty, Nat.div_eq_of_lt hused]
  · have hblocks : (used + data.length) / 8 = 0 := by omega
    simp [hblocks]
  · have hblocks : (used + data.length) / 8 = 1 + (data.length - (8 - used)) / 8 := by omega
    simp [hblocks, Nat.add_mul]
  · have hzero : used = 0 := by omega
    simp [hzero]

theorem roundCount_init (c : Config) (used : Nat) (k0 k1 : Word) : roundCount c used (.init k0 k1) = 0 := by
  simp [roundCount, microOps]

theorem roundCount_beat (c : Config) {used : Nat} (hused : used < 8) {i : Instr} {data : List Byte}
    (h : beatOf i = some data) : roundCount c used i = (used + data.length) / 8 * c.rc := by
  rw [roundCount, microOps_beat c used h, count_round_updateOps c hused]

theorem roundCount_final (c : Config) (used : Nat) : roundCount c used .final = c.rc + c.rf := by
  simp [roundCount, microOps, finalOps]

/-- The SIPROUNDs of UPDATE commands that carry the beats, when `start` bytes were supplied before the first. -/
def beatRounds (c : Config) (start : Nat) (is : List Instr) (beats : List (List Byte)) : Nat :=
  (is.zipIdx.map (fun p => roundCount c ((start + (beats.take p.2).flatten.length) % 8) p.1)).sum

theorem beatRounds_cons (c : Config) (start : Nat) (i : Instr) (is : List Instr) (beat : List Byte)
    (beats : List (List Byte)) :
    beatRounds c start (i :: is) (beat :: beats)
      = roundCount c (start % 8) i + beatRounds c (start + beat.length) is beats := by
  simp [beatRounds, List.zipIdx_succ, Function.comp_def, Nat.add_assoc]

/-- Whatever the cut, each block completed after the first `start` bytes is absorbed once. -/
theorem beatRounds_eq (c : Config) (start : Nat) {is : List Instr} {beats : List (List Byte)}
    (h : is.map beatOf = beats.map some) :
    start / 8 * c.rc + beatRounds c start is beats = (start + beats.flatten.length) / 8 * c.rc := by
  induction is generalizing beats start with
  | nil =>
    obtain rfl : beats = [] := List.map_eq_nil_iff.mp h.symm
    simp [beatRounds]
  | cons i is ih =>
    cases beats with
    | nil => simp at h
    | cons beat beats =>
      obtain ⟨hbeat, hrest⟩ : beatOf i = some beat ∧ is.map beatOf = beats.map some := by simpa using h
      have hblocks : start / 8 + (start % 8 + beat.length) / 8 = (start + beat.length) / 8 := by omega
      rw [beatRounds_cons, roundCount_beat c (Nat.mod_lt _ (by decide)) hbeat, ← Nat.add_assoc, ← Nat.add_mul, hblocks,
        ih _ hrest, List.flatten_cons, List.length_append, Nat.add_assoc]

end Sys2Proof.Machine
end

section
/-! The statements about the lifecycle, clean runs and the work of a message (spec/70_reset_and_hazards.md). -/

namespace Sys2Proof.Proofs

open Sys2Proof.Machine

/-- Settles O25: a reset is answered in every state; what a word decodes to and ACTIVE settle the answer to it. -/
theorem lifecycleTransitions : Obligations.LifecycleTransitions := by
  unfold Obligations.LifecycleTransitions
  intro s ev rest hport
  refine ⟨fun beside hev => ?reset, fun w hev => ?command⟩
  case reset =>
    subst hev
    exact ⟨_, step_cons hport, rfl, rfl, rfl⟩
  case command =>
    subst hev
    refine ⟨fun k0 k1 hdecode => ?init, fun i data hdecode hdata => ?update, fun hdecode => ?final,
      fun why hdecode => step_of_decode_error hport hdecode⟩
    case init => exact ⟨_, step_of_decode_ok hport hdecode, rfl, rfl, rfl⟩
    case update =>
      rw [step_of_decode_ok hport hdecode]
      exact ⟨fun hactive => ⟨_, exec_beat_active hdata hactive, (updateEngine_active _ data _).trans hactive, rfl, rfl⟩,
        fun hidle => exec_beat_idle hdata hidle⟩
    case final =>
      rw [step_of_decode_ok hport hdecode]
      exact ⟨fun hactive => ⟨_, exec_final_active hactive, rfl, rfl, _, rfl⟩, fun hidle => exec_final_idle hidle⟩

/-- Settles O26, by induction on the events: each is answered exactly when the order allows it. -/
theorem cleanRunsAreTheOrderedOnes : Obligations.CleanRunsAreTheOrderedOnes := by
  unfold Obligations.CleanRunsAreTheOrderedOnes
  exact fun evs s => ⟨cleanRun_iff_hostKeepsOrder evs s, fun t hrun => runEvents_responses hrun⟩

/-- Settles O49: the blocks of the UPDATEs telescope over the cut, and FINAL absorbs one more. -/
theorem roundsPerMessage : Obligations.RoundsPerMessage := by
  unfold Obligations.RoundsPerMessage
  refine fun c => ⟨roundCount_init c, fun used i data hused hdata => ⟨roundCount_beat c hused hdata, fun hlen => ?one⟩,
    roundCount_final c, fun is beats hbeats => ?message⟩
  case one =>
    rw [roundCount_beat c hused hdata]
    split_ifs with hshort
    · rw [Nat.div_eq_of_lt hshort, Nat.zero_mul]
    · rw [show (used + data.length) / 8 = 1 by omega, Nat.one_mul]
  case message =>
    have hsum := beatRounds_eq c 0 hbeats
    simp only [beatRounds, Nat.zero_add, Nat.zero_div, Nat.zero_mul] at hsum
    rw [hsum, roundCount_final, Nat.add_mul, Nat.one_mul, Nat.add_assoc]

end Sys2Proof.Proofs
end

section
/-! What an accepted word is, and the encoding of the command read from it (spec/30_encoding.md sections 2 and 4). -/

namespace Sys2Proof

open Sys2Proof.Machine

variable {w : CmdWord} {i : Instr}

/-- The words the decoder accepts, by form, with the command read from each (rule R49). -/
theorem decode_ok_cases (h : decode w = .ok i) :
    (CmdWord.op w = 1 ∧ CmdWord.count w = 0 ∧ i = .init (CmdWord.lo w) (CmdWord.hi w)) ∨
    (CmdWord.op w = 2 ∧ (CmdWord.count w).toNat ≤ 7 ∧ i = .update (lanes (CmdWord.lo w) (CmdWord.count w).toNat)) ∨
    (CmdWord.op w = 2 ∧ CmdWord.count w = 8 ∧ i = .updateFull (CmdWord.lo w)) ∨
    (CmdWord.op w = 3 ∧ CmdWord.count w = 0 ∧ i = .final) := by
  rcases (decode_ok_iff w).mp ⟨i, h⟩ with ⟨hop, hn⟩ | ⟨hop, hn⟩ | ⟨hop, hn⟩
  · rw [decode_init hop hn, Except.ok.injEq] at h
    exact .inl ⟨hop, BitVec.eq_of_toNat_eq hn, h.symm⟩
  · rw [decode_of_op_two hop] at h
    by_cases hshort : (CmdWord.count w).toNat ≤ 7
    · rw [if_pos hshort, Except.ok.injEq] at h
      exact .inr (.inl ⟨hop, hshort, h.symm⟩)
    · have hfull : (CmdWord.count w).toNat = 8 := by omega
      rw [if_neg hshort, if_pos hfull, Except.ok.injEq] at h
      exact .inr (.inr (.inl ⟨hop, BitVec.eq_of_toNat_eq hfull, h.symm⟩))
  · rw [decode_final hop hn, Except.ok.injEq] at h
    exact .inr (.inr (.inr ⟨hop, BitVec.eq_of_toNat_eq hn, h.symm⟩))

theorem wellFormed_of_decode (h : decode w = .ok i) : i.wellFormed = true := by
  rcases decode_ok_cases h with ⟨-, -, rfl⟩ | ⟨-, hn, rfl⟩ | ⟨-, -, rfl⟩ | ⟨-, -, rfl⟩
  · rfl
  · simpa [Instr.wellFormed] using hn
  · rfl
  · rfl

/-- The encoder keeps `op` and n of a decoded word; the ignored fields it writes are left open here (log 9). -/
theorem encode_of_decode (h : decode w = .ok i) :
    ∃ hi lo, encode i = cmdWord (CmdWord.op w) (CmdWord.count w) hi lo := by
  rcases decode_ok_cases h with ⟨hop, hn, rfl⟩ | ⟨hop, -, rfl⟩ | ⟨hop, hn, rfl⟩ | ⟨hop, hn, rfl⟩
  · exact ⟨_, _, by rw [hop, hn]; rfl⟩
  · exact ⟨_, _, by rw [encode, lanes_length, BitVec.ofNat_toNat, BitVec.setWidth_eq, hop]⟩
  · exact ⟨_, _, by rw [hop, hn]; rfl⟩
  · exact ⟨_, _, by rw [hop, hn]; rfl⟩

theorem header_encode_of_decode (h : decode w = .ok i) : CmdWord.header (encode i) = CmdWord.header w := by
  obtain ⟨hi, lo, hencode⟩ := encode_of_decode h
  rw [hencode, header_eq, header_eq w, op_cmdWord, count_cmdWord]

/-- A word accepted under `op` 1 is an INIT word; no bit of it is ignored (rule R43), so it is what the encoder writes. -/
theorem encode_of_decode_op_one (h : decode w = .ok i) (hop : CmdWord.op w = 1) : encode i = w := by
  rw [decode_of_op_one hop] at h
  split_ifs at h with hn
  rw [← Except.ok.inj h]
  calc encode (.init (CmdWord.lo w) (CmdWord.hi w))
      = cmdWord (CmdWord.op w) (CmdWord.count w) (CmdWord.hi w) (CmdWord.lo w) := by
        rw [hop, BitVec.eq_of_toNat_eq (x := CmdWord.count w) (y := 0) hn, encode]
    _ = w := (word_eq w).symm

end Sys2Proof
end

section
/-! The statements about encoding and decoding in turn, the written words (spec/30_encoding.md), and the digest of no rounds
(spec/95_test_vectors.md section 6). -/

namespace Sys2Proof.Proofs

open Sys2Proof.Machine

/-- Settles O1, by the cases of the command: the decoder reads back each field the encoder wrote. -/
theorem decodeEncodeRoundTrip : Obligations.DecodeEncodeRoundTrip := by
  unfold Obligations.DecodeEncodeRoundTrip
  exact fun _ hwf => decode_encode hwf

/-- Settles O5: an accepted word's command is well formed, so decoding undoes encoding on it, and the encoder keeps the
header. -/
theorem encodeOfDecodedWord : Obligations.EncodeOfDecodedWord := by
  unfold Obligations.EncodeOfDecodedWord
  intro w i hdecode
  have hwf := wellFormed_of_decode hdecode
  exact ⟨hwf, header_encode_of_decode hdecode, decode_encode hwf, encode_of_decode_op_one hdecode⟩

/-- Settles O44: with no rounds every block and both key halves cancel in the fold. -/
theorem zeroRoundsGiveOneDigest : Obligations.ZeroRoundsGiveOneDigest := by
  unfold Obligations.ZeroRoundsGiveOneDigest
  exact sipHash_zero_rounds

/-- Settles O6, by running the decoder on each word. -/
theorem writtenWordsDecode : Obligations.WrittenWordsDecode := by
  unfold Obligations.WrittenWordsDecode
  decide

end Sys2Proof.Proofs
end
